-- ==== Sys2Proof/Config.lean ====
section
/-! DEFINITION. The parameters of the block (spec/00_scope.md R7) and the values the spec leaves free. Every type and
every check of the model takes its width or its bound from here. -/

namespace Sys2Proof.Config

/-- `WORD_W`: the width of the accumulator, a register, a memory word and an operand (R7; UNVERIFIED literal, unsafe, log 8). -/
abbrev wordW : Nat := 32

/-- `NUM_REGS`: registers R0 to R3 (R7; UNVERIFIED literal, unsafe, log 8). -/
abbrev numRegs : Nat := 4

/-- `MEM_WORDS`: data-memory addresses 0 to 1023 (R7; UNVERIFIED literal, unsafe, log 8). -/
abbrev memWords : Nat := 1024

/-- `PC_W`: the width of the program counter (R7, D3). -/
abbrev pcW : Nat := 32

/-- `INSTR_W`: the width of an instruction word (R7, D4): the eight bits of OP and two operands (spec/30_encoding.md R71). -/
abbrev instrW : Nat := 72

/-- What the implementation fixes and the spec leaves OPEN: which of the 2^31 admitted values `IMEM_CAPACITY` takes
(R7, D3; safe, log 5). It has no body, so nothing can be proved of its value beyond its bounds. -/
opaque imemCapacityIndex : Fin 2147483648

/-- `IMEM_CAPACITY`: the longest program the block can hold, at least 1 and at most 2^31 (R7, D3). -/
def imemCapacity : Nat := imemCapacityIndex.val + 1

/-- The free value: the word that index `i` of the instruction store holds at power-up, "unspecified" by
spec/10_state.md R39 and "any value" by spec/93_implementation_defined.md (safe, log 4). -/
opaque imemPowerUp : Nat → BitVec instrW

end Sys2Proof.Config
end

