-- ==== Sys2Proof/Word.lean ====
section
/-! DEFINITION. The word types of the AAAASM execution core, each of the width that its parameter names
(spec/00_scope.md R7, R9, R11). -/

namespace Sys2Proof

/-- A signed value of `WORD_W` bits: accumulator, register, memory word or operand (R7, R9). `BitVec.toInt` is the spec's
`s32`, `BitVec.toNat` its `u32`, and `+` its `+_32` (R11). -/
abbrev Word := BitVec Config.wordW

/-- An unsigned value of `PC_W` bits: the program counter and the program length `N` (R7, D3). -/
abbrev PcWord := BitVec Config.pcW

/-- One instruction word, of `INSTR_W` bits (R7, spec/30_encoding.md R70). -/
abbrev InstrWord := BitVec Config.instrW

end Sys2Proof
end

