-- ==== Sys2Proof/Syntax.lean ====
section
/-! DEFINITION. The eleven instructions (spec/00_scope.md R1, spec/30_encoding.md R74), with operands as the spec gives
them: whole signed 32-bit values, out-of-range ones included (R73). -/

namespace Sys2Proof

/-- One instruction value. The operands stand in the spec's textual order (R74, R83). -/
inductive Instr where
  /-- NOOP (R130). -/
  | noop
  /-- LOAD imm (R131). -/
  | load (imm : Word)
  /-- R2A_LOAD reg (R132). -/
  | r2aLoad (reg : Word)
  /-- M2R_LOAD addr reg (R133). -/
  | m2rLoad (addr reg : Word)
  /-- M2A_LOAD addr (R134). -/
  | m2aLoad (addr : Word)
  /-- A2R_STORE reg (R135). -/
  | a2rStore (reg : Word)
  /-- A2M_STORE addr (R136). -/
  | a2mStore (addr : Word)
  /-- R2M_STORE reg addr (R137). -/
  | r2mStore (reg addr : Word)
  /-- I_ADD imm (R160). -/
  | iAdd (imm : Word)
  /-- JUMP tgt (R170). -/
  | jump (tgt : Word)
  /-- JUMP_NEG tgt (R171). -/
  | jumpNeg (tgt : Word)
deriving DecidableEq, Repr

/-- The name of an instruction's row in the opcode map (R74). -/
def Instr.mnemonic : Instr → String
  | .noop => "NOOP"
  | .load _ => "LOAD"
  | .r2aLoad _ => "R2A_LOAD"
  | .m2rLoad _ _ => "M2R_LOAD"
  | .m2aLoad _ => "M2A_LOAD"
  | .a2rStore _ => "A2R_STORE"
  | .a2mStore _ => "A2M_STORE"
  | .r2mStore _ _ => "R2M_STORE"
  | .iAdd _ => "I_ADD"
  | .jump _ => "JUMP"
  | .jumpNeg _ => "JUMP_NEG"

end Sys2Proof
end

