-- ==== Sys2Proof/WellFormed.lean ====
section
/-! DEFINITION. The opcode map as masks and matches, which words are legal by it, and which instructions pass every
operand check inside a program of a given length. Nothing here is a condition for decoding: decode answers for every
word, and an out-of-range operand is an instruction that faults when it runs (spec/30_encoding.md R75). -/

namespace Sys2Proof

/-- One row of the opcode map: a word encodes the row's instruction iff `word AND mask = pattern`
(spec/30_encoding.md R74). -/
structure OpcodeRow where
  mnemonic : String
  pattern : InstrWord
  mask : InstrWord
deriving DecidableEq, Repr

/-- The table of R74 (spec/opcode_table.json), one row an instruction. -/
def opcodeTable : List OpcodeRow :=
  [ ⟨"NOOP",      0x00_00000000_00000000#72, 0xFF_FFFFFFFF_FFFFFFFF#72⟩,
    ⟨"LOAD",      0x01_00000000_00000000#72, 0xFF_00000000_FFFFFFFF#72⟩,
    ⟨"R2A_LOAD",  0x02_00000000_00000000#72, 0xFF_00000000_FFFFFFFF#72⟩,
    ⟨"M2R_LOAD",  0x03_00000000_00000000#72, 0xFF_00000000_00000000#72⟩,
    ⟨"M2A_LOAD",  0x04_00000000_00000000#72, 0xFF_00000000_FFFFFFFF#72⟩,
    ⟨"A2R_STORE", 0x05_00000000_00000000#72, 0xFF_00000000_FFFFFFFF#72⟩,
    ⟨"A2M_STORE", 0x06_00000000_00000000#72, 0xFF_00000000_FFFFFFFF#72⟩,
    ⟨"R2M_STORE", 0x07_00000000_00000000#72, 0xFF_00000000_00000000#72⟩,
    ⟨"I_ADD",     0x08_00000000_00000000#72, 0xFF_00000000_FFFFFFFF#72⟩,
    ⟨"JUMP",      0x09_00000000_00000000#72, 0xFF_00000000_FFFFFFFF#72⟩,
    ⟨"JUMP_NEG",  0x0A_00000000_00000000#72, 0xFF_00000000_FFFFFFFF#72⟩ ]

/-- The row's own test of a word (R74). -/
def OpcodeRow.accepts (row : OpcodeRow) (w : InstrWord) : Bool := (w &&& row.mask) == row.pattern

/-- A word is legal when some row of the opcode map accepts it; every other word is illegal (R74, R77, R78). -/
def InstrWord.legal (w : InstrWord) : Bool := opcodeTable.any fun row => row.accepts w

/-- A register operand is valid iff `0 <= s32(r) < NUM_REGS` (spec/10_state.md R24). -/
def validReg (r : Word) : Bool := decide (0 ≤ r.toInt) && decide (r.toInt < Config.numRegs)

/-- An address operand is valid iff `0 <= s32(a) < MEM_WORDS` (spec/20_memory.md R54). -/
def validAddr (a : Word) : Bool := decide (0 ≤ a.toInt) && decide (a.toInt < Config.memWords)

/-- A jump target is valid iff `0 <= s32(t) < N` (spec/43_control_transfer.md). -/
def validTgt (n : Nat) (t : Word) : Bool := decide (0 ≤ t.toInt) && decide (t.toInt < n)

/-- The instruction passes every operand check of its rule in a program of `n` words. -/
def Instr.wellFormed (n : Nat) : Instr → Bool
  | .noop => true
  | .load _ => true
  | .r2aLoad r => validReg r
  | .m2rLoad a r => validAddr a && validReg r
  | .m2aLoad a => validAddr a
  | .a2rStore r => validReg r
  | .a2mStore a => validAddr a
  | .r2mStore r a => validAddr a && validReg r
  | .iAdd _ => true
  | .jump t => validTgt n t
  | .jumpNeg t => validTgt n t

end Sys2Proof
end

