-- ==== Sys2Proof/Decode.lean ====
section
/-! DEFINITION. The decoder, total on every 72-bit word, and the encoder (spec/30_encoding.md R71 to R77). -/

namespace Sys2Proof

/-- Field `OP` of a word, the eight bits above both operands, `w[71:64]` (R71). -/
def opField (w : InstrWord) : BitVec 8 := w.extractLsb' (2 * Config.wordW) 8

/-- Field `A` of a word, the higher operand, `w[63:32]` (R71). -/
def fieldA (w : InstrWord) : Word := w.extractLsb' Config.wordW Config.wordW

/-- Field `B` of a word, the lower operand, `w[31:0]` (R71). -/
def fieldB (w : InstrWord) : Word := w.extractLsb' 0 Config.wordW

/-- `OP ++ A ++ B` (R71). -/
def packWord (op : BitVec 8) (a b : Word) : InstrWord := op ++ a ++ b

/-- Why a word is illegal. Which words are is the spec's (R75, R77), which answers only "Illegal"; that the decoder says why,
and names field `A` where both fields are wrong, is the model's (DESIGN CHOICE, safe, log 19). The machine's fault is one
and the same for all three (R205). -/
inductive Illegal where
  /-- `OP` is in 0x0B..0xFF. -/
  | opcode
  /-- Field `A` must be 0 and is not. -/
  | fieldA
  /-- Field `B` must be 0 and is not. -/
  | fieldB
deriving DecidableEq, Repr

/-- What decoding answers: an instruction, or that the word is illegal (R75). -/
inductive Decoded where
  | instr (i : Instr)
  | illegal (why : Illegal)
deriving DecidableEq, Repr

/-- The instruction, if the word is not illegal. -/
def Decoded.instr? : Decoded → Option Instr
  | .instr i => some i
  | .illegal _ => none

/-- Formats Z and A1: field `B` must be 0 (R72). -/
def requireNoB (b : Word) (d : Decoded) : Decoded := if b = 0 then d else .illegal .fieldB

/-- Format Z: fields `A` and `B` must be 0 (R72). -/
def requireNoAB (a b : Word) (d : Decoded) : Decoded :=
  if a = 0 then requireNoB b d else .illegal .fieldA

/-- The cases of the decode function on a word's fields, in the spec's order (R75). -/
def decodeFields (op : BitVec 8) (a b : Word) : Decoded :=
  match op.toNat with
  | 0x00 => requireNoAB a b (.instr .noop)
  | 0x01 => requireNoB b (.instr (.load a))
  | 0x02 => requireNoB b (.instr (.r2aLoad a))
  | 0x03 => .instr (.m2rLoad a b)
  | 0x04 => requireNoB b (.instr (.m2aLoad a))
  | 0x05 => requireNoB b (.instr (.a2rStore a))
  | 0x06 => requireNoB b (.instr (.a2mStore a))
  | 0x07 => .instr (.r2mStore a b)
  | 0x08 => requireNoB b (.instr (.iAdd a))
  | 0x09 => requireNoB b (.instr (.jump a))
  | 0x0A => requireNoB b (.instr (.jumpNeg a))
  | _ => .illegal .opcode

/-- The decode function, total on every word (R75). It reads the word only and checks no range. -/
def decode (w : InstrWord) : Decoded := decodeFields (opField w) (fieldA w) (fieldB w)

/-- The encode function (R76): the one word of an instruction value. -/
def encode : Instr → InstrWord
  | .noop => packWord 0x00 0 0
  | .load imm => packWord 0x01 imm 0
  | .r2aLoad r => packWord 0x02 r 0
  | .m2rLoad a r => packWord 0x03 a r
  | .m2aLoad a => packWord 0x04 a 0
  | .a2rStore r => packWord 0x05 r 0
  | .a2mStore a => packWord 0x06 a 0
  | .r2mStore r a => packWord 0x07 r a
  | .iAdd imm => packWord 0x08 imm 0
  | .jump t => packWord 0x09 t 0
  | .jumpNeg t => packWord 0x0A t 0

/-- The instruction word that a table word of `nbits` bits stands for. An instruction is one 72-bit word (R70), so the
table's bit k is the word's bit k, and every bit at or above `nbits` is 0 (DEDUCED, safe, log 11). -/
def tableInstrWord (nbits w : Nat) : InstrWord := BitVec.ofNat Config.instrW (w % 2 ^ nbits)

/-- The instruction the decoder reads from a word numbered as spec/opcode_table.json numbers its bits. -/
def decodeTableWord (nbits w : Nat) : Option Instr := (decode (tableInstrWord nbits w)).instr?

end Sys2Proof
end

