-- ==== Sys2Proof/Machine/State.lean ====
section
/-! DEFINITION. Everything the spec gives the machine to hold (spec/10_state.md R39), as plain data, and its reset value. -/

namespace Sys2Proof.Machine

/-- The run state (spec/10_state.md R30). -/
inductive RunState where
  /-- Reset has happened; the core waits for the host. -/
  | idle
  /-- The core takes steps. -/
  | running
  /-- The program ran past its last instruction: success. -/
  | halted
  /-- A step failed. -/
  | faulted
deriving DecidableEq, Repr

/-- The fault record (spec/10_state.md R33). A field the cause does not use is 0. -/
structure FaultRecord where
  /-- The fault's code (spec/60_exceptions.md R201); 0 is NONE. -/
  cause : BitVec 8
  /-- `f_pc`: `pc` of the step that faulted. -/
  fPc : PcWord
  /-- `f_value`: the offending operand, or `pc` for OutOfBoundsFetch. -/
  fValue : Word
  /-- `f_len`: `N` for IllegalJump. -/
  fLen : PcWord
  /-- `f_word`: the fetched word for IllegalInstruction. -/
  fWord : InstrWord
deriving DecidableEq, Repr

/-- The record of no fault: every field 0 (R33, R39). -/
def FaultRecord.none : FaultRecord := { cause := 0, fPc := 0, fValue := 0, fLen := 0, fWord := 0 }

/-- A retire event `(pc_before, word, acc_after)` (spec/10_state.md R41). -/
structure RetireEvent where
  pcBefore : PcWord
  word : InstrWord
  accAfter : Word
deriving DecidableEq, Repr

/-- Data memory as (word address, word) pairs. The unit of address and of storage is the whole word of `WORD_W` bits, and no byte
address exists (spec/20_memory.md R52, R57; DEDUCED, safe, log 1). Its canonical form is `Memory.wf` (DESIGN CHOICE,
safe, log 1). -/
abbrev Memory := List (Nat × Word)

/-- The state of the core (R39). `retired` is the model's own field: what the retire port has emitted. -/
structure State where
  /-- The accumulator `acc` (R20). -/
  acc : Word
  /-- The registers R0 to R3 (R22). -/
  regs : Vector Word Config.numRegs
  /-- Data memory `M[0..1023]` (spec/20_memory.md R52). -/
  mem : Memory
  /-- The program counter, an unsigned instruction index (R25). -/
  pc : PcWord
  /-- The run state (R30). -/
  run : RunState
  /-- The fault record (R33). -/
  fault : FaultRecord
  /-- The program length `N`, unsigned (R34). -/
  len : PcWord
  /-- The instruction store: the words at indices 0, 1, … that have been loaded (R34). An index beyond the list still
  holds what it held at power-up, the free value `Config.imemPowerUp` (log 4). -/
  imem : List InstrWord
  /-- Every event the retire port has emitted, oldest first (R41; DESIGN CHOICE, safe, log 3). -/
  retired : List RetireEvent
deriving DecidableEq, Repr

/-- The faults that end a step WITHOUT a next state. There is none: every fault of the spec is an effect on the state,
which the step makes (spec/60_exceptions.md R207), so a faulting step answers a next state in FAULTED (log 7; safe). -/
inductive Fault where
deriving DecidableEq, Repr

/-- Why the model gives an instruction no meaning. -/
inductive Refusal where
  /-- Raised by an arm of exec whose instruction has no meaning yet; no arm does. Safe: nothing can be proved of it. -/
  | notModelled (mnemonic : String)
deriving DecidableEq, Repr

/-- The machine after power-up and reset (R39): zeroed, IDLE, and no program loaded (`N = 0`). The instruction store is
unspecified then, so no word of it is listed (logs 4, 9). -/
def State.reset : State :=
  { acc := 0
    regs := Vector.replicate Config.numRegs 0
    mem := []
    pc := 0
    run := .idle
    fault := FaultRecord.none
    len := 0
    imem := []
    retired := [] }

end Sys2Proof.Machine
end

