-- ==== Sys2Proof/Machine/Flags.lean ====
section
/-! DEFINITION. The conditions of the ISA. There is no flag register and no condition code, and no instruction sets a
flag (spec/10_state.md R28); the one condition is tested on the accumulator. -/

namespace Sys2Proof.Machine

/-- JUMP_NEG's condition, `s32(acc) < 0` (R28, spec/43_control_transfer.md R171). -/
def State.accNegative (s : State) : Bool := decide (s.acc.toInt < 0)

end Sys2Proof.Machine
end

