-- ==== Sys2Proof/Machine/Memory.lean ====
section
/-! DEFINITION. Data memory: the one form it is held in, reading and writing one word (spec/20_memory.md R52 to R60). -/

namespace Sys2Proof.Machine

/-- What an address that is not listed reads as: data memory is zero-initialised (R52, spec/10_state.md R39). -/
def Memory.unlisted : Word := 0

/-- `MemRead(a, 1)`: the word at word address `a` (R55). -/
def Memory.read : Memory → Nat → Word
  | [], _ => Memory.unlisted
  | (b, v) :: m, a => if b = a then v else Memory.read m a

/-- The memory with nothing listed at `a`. -/
def Memory.clear : Memory → Nat → Memory
  | [], _ => []
  | (b, v) :: m, a => if b = a then Memory.clear m a else (b, v) :: Memory.clear m a

/-- The memory with `v` listed at `a`, before the first higher address. -/
def Memory.place : Memory → Nat → Word → Memory
  | [], a, v => [(a, v)]
  | (b, x) :: m, a, v => if a < b then (a, v) :: (b, x) :: m else (b, x) :: Memory.place m a v

/-- `MemWrite(a, 1, v)`: the word at `a` becomes `v`; no other word changes (R55, R60). -/
def Memory.write (m : Memory) (a : Nat) (v : Word) : Memory :=
  if v = Memory.unlisted then Memory.clear m a else Memory.place (Memory.clear m a) a v

/-- The canonical form: addresses inside data memory and strictly rising, and nothing listed that an unlisted address
reads as. Two memories in this form that read alike are the same list. The form is the model's own, no rule of the spec
(DESIGN CHOICE, safe, log 1). -/
def Memory.wf : Memory → Bool
  | [] => true
  | (a, v) :: m =>
    decide (a < Config.memWords) && decide (v ≠ Memory.unlisted) && m.all (fun c => decide (a < c.1)) && Memory.wf m

end Sys2Proof.Machine
end

