-- ==== Sys2Proof/Machine/Operands.lean ====
section
/-! DEFINITION. The operand forms: a register index, a data-memory address, a jump target; each checked on the whole
signed operand (spec/30_encoding.md R73). An immediate is the operand itself and has no check. -/

namespace Sys2Proof.Machine

/-- The register an operand names, if it is valid: `0 <= s32(r) < NUM_REGS` (spec/10_state.md R24). -/
def regIndex (r : Word) : Option (Fin Config.numRegs) :=
  if h : 0 ≤ r.toInt ∧ r.toInt < Config.numRegs then some ⟨r.toInt.toNat, by omega⟩ else none

/-- The data-memory address an operand names, if it is valid: `0 <= s32(a) < MEM_WORDS` (spec/20_memory.md R54). It is
the operand itself: direct absolute addressing (R56). -/
def dataAddress (a : Word) : Option (Fin Config.memWords) :=
  if h : 0 ≤ a.toInt ∧ a.toInt < Config.memWords then some ⟨a.toInt.toNat, by omega⟩ else none

/-- The instruction index a target operand names in a program of length `n`, if it is valid: `0 <= s32(t) < N`; the
index is `u32(t)` (spec/43_control_transfer.md, R170). -/
def jumpTarget (n : PcWord) (t : Word) : Option PcWord :=
  if 0 ≤ t.toInt ∧ t.toInt < n.toNat then some (t.setWidth Config.pcW) else none

end Sys2Proof.Machine
end

