-- ==== Sys2Proof/Machine/Ops.lean ====
section
/-! DEFINITION. The named operations over the state: the primitives of spec/00_scope.md R12, taking a fault
(spec/60_exceptions.md R201, R207), halting, fetching and retiring (spec/40_execution_cycle.md). -/

namespace Sys2Proof.Machine

/-- How a step of the model ends. -/
abbrev Result := Host.Outcome State Fault Refusal

/-- `acc <- v`. -/
def State.setAcc (s : State) (v : Word) : State := { s with acc := v }

/-- `x[i]`. -/
def State.readReg (s : State) (i : Fin Config.numRegs) : Word := s.regs[i]

/-- `x[i] <- v`. -/
def State.writeReg (s : State) (i : Fin Config.numRegs) (v : Word) : State := { s with regs := s.regs.set i v }

/-- `MemRead(a, 1)` (spec/20_memory.md R55). -/
def State.readMem (s : State) (a : Nat) : Word := s.mem.read a

/-- `MemWrite(a, 1, v)` (spec/20_memory.md R55). -/
def State.writeMem (s : State) (a : Nat) (v : Word) : State := { s with mem := s.mem.write a v }

/-- Increment: `pc <- pc + 1`, which never wraps in a step (spec/40_execution_cycle.md R106, spec/10_state.md R27; log 12). -/
def State.incPc (s : State) : State := { s with pc := s.pc + 1 }

/-- `pc <- t`, no increment (spec/40_execution_cycle.md R106). -/
def State.jumpTo (s : State) (t : PcWord) : State := { s with pc := t }

/-- `IMem(i)`, the word at index `i` of the instruction store (spec/20_memory.md R51). An index that no load has written
holds the free value of power-up (spec/10_state.md R39; safe, log 4). -/
def State.imemWord (s : State) (i : Nat) : InstrWord := s.imem.getD i (Config.imemPowerUp i)

/-- The faults of the core, with the operand each reports (spec/60_exceptions.md R201). -/
inductive FaultCause where
  /-- The fetch found `pc > N` (R202). -/
  | outOfBoundsFetch
  /-- A register operand out of range (R203). -/
  | illegalRegister (index : Word)
  /-- An address operand out of range (R204). -/
  | illegalMemoryAccess (address : Word)
  /-- A jump target out of range (R204). -/
  | illegalJump (target : Word)
  /-- The fetched word is illegal (R205). -/
  | illegalInstruction (word : InstrWord)
deriving DecidableEq, Repr

/-- What the fault record holds after a fault raised in state `s`: the rows of R201. -/
def FaultCause.record (c : FaultCause) (s : State) : FaultRecord :=
  match c with
  | .outOfBoundsFetch => { FaultRecord.none with cause := 1, fPc := s.pc, fValue := s.pc.setWidth Config.wordW }
  | .illegalRegister r => { FaultRecord.none with cause := 2, fPc := s.pc, fValue := r }
  | .illegalMemoryAccess a => { FaultRecord.none with cause := 3, fPc := s.pc, fValue := a }
  | .illegalJump t => { FaultRecord.none with cause := 4, fPc := s.pc, fValue := t, fLen := s.len }
  | .illegalInstruction w => { FaultRecord.none with cause := 5, fPc := s.pc, fWord := w }

/-- Fault entry: the record is written and the run state becomes FAULTED; nothing else changes (R207). There is no
return from it but the host's reset (R208). -/
def State.raise (s : State) (c : FaultCause) : State := { s with run := .faulted, fault := c.record s }

/-- The clean halt: `run <- HALTED` and nothing else (spec/40_execution_cycle.md R102). -/
def State.halt (s : State) : State := { s with run := .halted }

/-- What a step finds before it executes anything (spec/40_execution_cycle.md R101, R107). -/
inductive Fetched where
  /-- The core is not RUNNING: no step is taken (R100). -/
  | notRunning
  /-- `pc = N` (R102). -/
  | atEnd
  /-- `pc > N` (R103). -/
  | pastEnd
  /-- The word is no instruction (R205). -/
  | illegal (w : InstrWord)
  /-- The word encodes an instruction. -/
  | instr (w : InstrWord) (i : Instr)
deriving DecidableEq, Repr

/-- The checks before execution, in the order of R107: halt, fetch bound, decode. -/
def State.fetch (s : State) : Fetched :=
  if s.run = .running then
    if s.pc.toNat = s.len.toNat then .atEnd
    else if s.len.toNat < s.pc.toNat then .pastEnd
    else
      match decode (s.imemWord s.pc.toNat) with
      | .illegal _ => .illegal (s.imemWord s.pc.toNat)
      | .instr i => .instr (s.imemWord s.pc.toNat) i
  else .notRunning

/-- The retire port: an instruction that executed successfully emits one event; one that faulted emits none
(spec/10_state.md R41, spec/60_exceptions.md R207). -/
def State.emitRetire (before : State) (w : InstrWord) (after : State) : State :=
  if after.run = .running then { after with retired := after.retired ++ [⟨before.pc, w, after.acc⟩] } else after

/-- The end of a step that executed the instruction of word `w` (spec/40_execution_cycle.md R101, R105). -/
def State.retire (before : State) (w : InstrWord) (r : Result) : Result :=
  match r with
  | .next after => .next (before.emitRetire w after)
  | .fault f => .fault f
  | .refused f => .refused f

/-- The list with `w` at index `i`; indices between its end and `i` keep what the store held at power-up, `base` being
the index of the list's first word. -/
def storeWord : List InstrWord → Nat → Nat → InstrWord → List InstrWord
  | [], _, 0, w => [w]
  | [], base, i + 1, w => Config.imemPowerUp base :: storeWord [] (base + 1) i w
  | _ :: ws, _, 0, w => w :: ws
  | x :: ws, base, i + 1, w => x :: storeWord ws (base + 1) i w

/-- The state in which the next step fetches `w`: `w` stands in the instruction store at `pc`, the program reaches at
least to it, and the host has started the core. It stands for the host's load_program and start
(spec/70_reset_and_hazards.md R243; log 6). -/
def State.withProgramWord (s : State) (w : InstrWord) : State :=
  { s with
    run := .running
    imem := storeWord s.imem 0 s.pc.toNat w
    len := if s.pc.toNat < s.len.toNat then s.len else s.pc + 1 }

end Sys2Proof.Machine
end

