-- ==== Sys2Proof/Machine/Arithmetic.lean ====
section
/-! DEFINITION. The one arithmetic instruction (spec/42_arithmetic.md R160). -/

namespace Sys2Proof.Machine

/-- I_ADD imm (R160): addition modulo 2^32, with no check and no flag (spec/00_scope.md R11). -/
def execIAdd (imm : Word) (s : State) : Result := .next (s.setAcc (s.acc + imm)).incPc

end Sys2Proof.Machine
end

