-- ==== Sys2Proof/Machine/ControlTransfer.lean ====
section
/-! DEFINITION. The two jumps (spec/43_control_transfer.md R170, R171). Targets are absolute instruction indices. -/

namespace Sys2Proof.Machine

/-- JUMP tgt (R170). -/
def execJump (tgt : Word) (s : State) : Result :=
  match jumpTarget s.len tgt with
  | none => .next (s.raise (.illegalJump tgt))
  | some t => .next (s.jumpTo t)

/-- JUMP_NEG tgt (R171): the target is checked whatever `acc` holds (90_conflicts.md C6). -/
def execJumpNeg (tgt : Word) (s : State) : Result :=
  match jumpTarget s.len tgt with
  | none => .next (s.raise (.illegalJump tgt))
  | some t => if s.accNegative then .next (s.jumpTo t) else .next s.incPc

end Sys2Proof.Machine
end

