-- ==== Sys2Proof/Machine/DataMovement.lean ====
section
/-! DEFINITION. The no-op, the loads and the stores (spec/41_data_movement.md R130 to R137). All checks come before all
writes (spec/40_execution_cycle.md R104). -/

namespace Sys2Proof.Machine

/-- NOOP (R130). -/
def execNoop (s : State) : Result := .next s.incPc

/-- LOAD imm (R131). -/
def execLoad (imm : Word) (s : State) : Result := .next (s.setAcc imm).incPc

/-- R2A_LOAD reg (R132). -/
def execR2aLoad (reg : Word) (s : State) : Result :=
  match regIndex reg with
  | none => .next (s.raise (.illegalRegister reg))
  | some r => .next (s.setAcc (s.readReg r)).incPc

/-- M2R_LOAD addr reg (R133): the address is checked first. -/
def execM2rLoad (addr reg : Word) (s : State) : Result :=
  match dataAddress addr with
  | none => .next (s.raise (.illegalMemoryAccess addr))
  | some a =>
    match regIndex reg with
    | none => .next (s.raise (.illegalRegister reg))
    | some r => .next (s.writeReg r (s.readMem a)).incPc

/-- M2A_LOAD addr (R134). -/
def execM2aLoad (addr : Word) (s : State) : Result :=
  match dataAddress addr with
  | none => .next (s.raise (.illegalMemoryAccess addr))
  | some a => .next (s.setAcc (s.readMem a)).incPc

/-- A2R_STORE reg (R135). -/
def execA2rStore (reg : Word) (s : State) : Result :=
  match regIndex reg with
  | none => .next (s.raise (.illegalRegister reg))
  | some r => .next (s.writeReg r s.acc).incPc

/-- A2M_STORE addr (R136). -/
def execA2mStore (addr : Word) (s : State) : Result :=
  match dataAddress addr with
  | none => .next (s.raise (.illegalMemoryAccess addr))
  | some a => .next (s.writeMem a s.acc).incPc

/-- R2M_STORE reg addr (R137): the address is checked first, although the register is written first. -/
def execR2mStore (reg addr : Word) (s : State) : Result :=
  match dataAddress addr with
  | none => .next (s.raise (.illegalMemoryAccess addr))
  | some a =>
    match regIndex reg with
    | none => .next (s.raise (.illegalRegister reg))
    | some r => .next (s.writeMem a (s.readReg r)).incPc

end Sys2Proof.Machine
end

