-- ==== Sys2Proof/Machine/Dispatch.lean ====
section
/-! DEFINITION. Which meaning runs for which instruction: one arm a constructor. -/

namespace Sys2Proof.Machine

def exec (i : Instr) (s : State) : Host.Outcome State Fault Refusal :=
  match i with
  | .noop => Sys2Proof.Machine.execNoop s
  | .load imm => Sys2Proof.Machine.execLoad imm s
  | .r2aLoad reg => Sys2Proof.Machine.execR2aLoad reg s
  | .m2rLoad addr reg => Sys2Proof.Machine.execM2rLoad addr reg s
  | .m2aLoad addr => Sys2Proof.Machine.execM2aLoad addr s
  | .a2rStore reg => Sys2Proof.Machine.execA2rStore reg s
  | .a2mStore addr => Sys2Proof.Machine.execA2mStore addr s
  | .r2mStore reg addr => Sys2Proof.Machine.execR2mStore reg addr s
  | .iAdd imm => Sys2Proof.Machine.execIAdd imm s
  | .jump tgt => Sys2Proof.Machine.execJump tgt s
  | .jumpNeg tgt => Sys2Proof.Machine.execJumpNeg tgt s

end Sys2Proof.Machine
end

