-- ==== Sys2Proof/Machine/Step.lean ====
section
/-! DEFINITION. One step of the core (spec/40_execution_cycle.md R101). -/

namespace Sys2Proof.Machine

/-- One step. A core that is not RUNNING takes none and keeps its state (R100, spec/60_exceptions.md R218; DESIGN CHOICE,
safe, log 2). -/
def step (s : State) : Host.Outcome State Fault Refusal :=
  match s.fetch with
  | .notRunning => .next s
  | .atEnd => .next s.halt
  | .pastEnd => .next (s.raise .outOfBoundsFetch)
  | .illegal w => .next (s.raise (.illegalInstruction w))
  | .instr w i => s.retire w (exec i s)

/-- The state whose next step fetches the table word `w` of `nbits` bits (log 6). -/
def State.withFetchWord (s : State) (nbits w : Nat) : State := s.withProgramWord (tableInstrWord nbits w)

end Sys2Proof.Machine
end

