-- ==== Sys2Proof/Machine/Assembler.lean ====
section
/-! DEFINITION. The assembler syntax (spec/30_encoding.md R80 to R88): from a source line to an instruction, and from a
program's lines to its words. It lies outside the block (spec/00_scope.md R5) and no step uses it. Text is a list of
characters. -/

namespace Sys2Proof.Asm

/-- Why a line is rejected. That these lines are rejected is the spec's (R84, R86), which names only "a parse error"; that
there are three kinds of it is the model's (DESIGN CHOICE, safe, log 18). -/
inductive ParseError where
  /-- The mnemonic is not one of the eleven, in upper case. -/
  | unknownMnemonic
  /-- The number or the kinds of the operands are not the mnemonic's shape, or an operand is no integer of `WORD_W` bits. -/
  | badOperands
  /-- The line has no tokens. -/
  | emptyLine
deriving DecidableEq, Repr

/-- What parsing a line answers. -/
inductive Parsed where
  | instr (i : Instr)
  | error (why : ParseError)
deriving DecidableEq, Repr

/-- An operand token (R82). -/
inductive Operand where
  | reg (index : Word)
  | num (value : Word)
deriving DecidableEq, Repr

/-- Tokens are split at white space: blank, tab, carriage return, line feed (R81; DESIGN CHOICE, safe, log 14). -/
def isSpace (c : Char) : Bool := c = ' ' || c = '\t' || c = '\r' || c = '\n'

/-- The tokens of a line, `cur` being the token under way, its characters reversed. -/
def tokensFrom : List Char → List Char → List (List Char)
  | [], cur => if cur = [] then [] else [cur.reverse]
  | c :: cs, cur =>
    if isSpace c then (if cur = [] then tokensFrom cs [] else cur.reverse :: tokensFrom cs [])
    else tokensFrom cs (c :: cur)

/-- The value of a decimal digit. -/
def digit (c : Char) : Option Nat :=
  if '0' ≤ c ∧ c ≤ '9' then some (c.toNat - '0'.toNat) else none

/-- The value of a run of digits after a value `n`. -/
def digitsFrom : List Char → Nat → Option Nat
  | [], n => some n
  | c :: cs, n =>
    match digit c with
    | some d => digitsFrom cs (10 * n + d)
    | none => none

/-- One or more digits (R85). -/
def natural : List Char → Option Nat
  | [] => none
  | c :: cs => digitsFrom (c :: cs) 0

/-- A decimal integer: an optional sign and one or more digits (R85). -/
def integer : List Char → Option Int
  | '-' :: cs => (natural cs).map fun n => -(n : Int)
  | '+' :: cs => (natural cs).map fun n => (n : Int)
  | cs => (natural cs).map fun n => (n : Int)

/-- `INT_MIN`, the least signed value of `WORD_W` bits (spec/00_scope.md R9). -/
def intMin : Int := -(2 ^ (Config.wordW - 1))

/-- `INT_MAX`, the greatest signed value of `WORD_W` bits (spec/00_scope.md R9). -/
def intMax : Int := 2 ^ (Config.wordW - 1) - 1

/-- The integer as an operand, if it lies in INT_MIN..INT_MAX (R85). -/
def wordValue (cs : List Char) : Option Word :=
  match integer cs with
  | some v => if intMin ≤ v ∧ v ≤ intMax then some (BitVec.ofInt Config.wordW v) else none
  | none => none

/-- A register token is `R` or `r` and a decimal integer; every other token is a number (R82, R85). -/
def operand : List Char → Option Operand
  | 'R' :: cs => (wordValue cs).map .reg
  | 'r' :: cs => (wordValue cs).map .reg
  | cs => (wordValue cs).map .num

/-- All the operands, if each is well written. -/
def operands : List (List Char) → Option (List Operand)
  | [] => some []
  | t :: ts =>
    match operand t, operands ts with
    | some o, some os => some (o :: os)
    | _, _ => none

/-- The shapes of the eleven mnemonics (R83): the instruction, if the operands' kinds are the mnemonic's. -/
def shape (mnemonic : List Char) (os : List Operand) : Parsed :=
  if mnemonic = "NOOP".toList then match os with | [] => .instr .noop | _ => .error .badOperands
  else if mnemonic = "LOAD".toList then match os with | [.num v] => .instr (.load v) | _ => .error .badOperands
  else if mnemonic = "R2A_LOAD".toList then match os with | [.reg r] => .instr (.r2aLoad r) | _ => .error .badOperands
  else if mnemonic = "M2R_LOAD".toList then
    match os with | [.num a, .reg r] => .instr (.m2rLoad a r) | _ => .error .badOperands
  else if mnemonic = "M2A_LOAD".toList then match os with | [.num a] => .instr (.m2aLoad a) | _ => .error .badOperands
  else if mnemonic = "A2R_STORE".toList then match os with | [.reg r] => .instr (.a2rStore r) | _ => .error .badOperands
  else if mnemonic = "A2M_STORE".toList then match os with | [.num a] => .instr (.a2mStore a) | _ => .error .badOperands
  else if mnemonic = "R2M_STORE".toList then
    match os with | [.reg r, .num a] => .instr (.r2mStore r a) | _ => .error .badOperands
  else if mnemonic = "I_ADD".toList then match os with | [.num v] => .instr (.iAdd v) | _ => .error .badOperands
  else if mnemonic = "JUMP".toList then match os with | [.num t] => .instr (.jump t) | _ => .error .badOperands
  else if mnemonic = "JUMP_NEG".toList then match os with | [.num t] => .instr (.jumpNeg t) | _ => .error .badOperands
  else .error .unknownMnemonic

/-- The parser: one line, one instruction or a parse error (R80, R84). Ranges are not checked. Where several kinds of error
apply, an ill-written operand is reported before an unknown mnemonic, and that before operands of the wrong shape (DESIGN
CHOICE, safe, log 18). -/
def parseLine (line : List Char) : Parsed :=
  match tokensFrom line [] with
  | [] => .error .emptyLine
  | m :: ts =>
    match operands ts with
    | some os => shape m os
    | none => .error .badOperands

/-- The words of a program, line k at index k; none if a line is rejected (R80, R84, R88). -/
def assemble : List (List Char) → Option (List InstrWord)
  | [] => some []
  | line :: lines =>
    match parseLine line, assemble lines with
    | .instr i, some ws => some (encode i :: ws)
    | _, _ => none

end Sys2Proof.Asm
end

