-- ==== Sys2Proof/Machine/HostOps.lean ====
section
/-! DEFINITION. The block's interface: the host operations, each atomic with respect to core steps
(spec/10_state.md R40, spec/70_reset_and_hazards.md R240 to R246). They are no part of the core's step. -/

namespace Sys2Proof.Machine

/-- The host operations of R40. Indices are integers, so that an out-of-range one, negative ones included, can be asked
for and is refused (DESIGN CHOICE, safe, log 10). -/
inductive HostOp where
  | reset
  | loadProgram (words : List InstrWord)
  | writeAcc (v : Word)
  | writeReg (i : Int) (v : Word)
  | writeMem (a : Int) (v : Word)
  | start
  | readRun
  | readAcc
  | readPc
  | readLen
  | readFault
  | readReg (i : Int)
  | readMem (a : Int)
  | readImem (i : Int)
deriving DecidableEq, Repr

/-- What the block hands back. -/
inductive HostAnswer where
  /-- The operation was performed and returns no value. -/
  | done
  /-- The operation was refused; it changed nothing. -/
  | refused
  /-- The run state. -/
  | runState (r : RunState)
  /-- The accumulator, a register or a memory word. -/
  | word (v : Word)
  /-- `pc` or `N`. -/
  | index (v : PcWord)
  /-- The fault record. -/
  | faultRecord (f : FaultRecord)
  /-- A word of the instruction store. -/
  | instrWord (w : InstrWord)
deriving DecidableEq, Repr

/-- The 2-bit encoding of the run state (R30). -/
def RunState.code : RunState → BitVec 2
  | .idle => 0
  | .running => 1
  | .halted => 2
  | .faulted => 3

/-- Host `reset` (spec/70_reset_and_hazards.md R240): everything zeroed and IDLE; `N` and the instruction store are kept,
and what the retire port has emitted stays emitted (log 3). -/
def State.hostReset (s : State) : State :=
  { s with
    acc := 0
    regs := Vector.replicate Config.numRegs 0
    mem := []
    pc := 0
    run := .idle
    fault := FaultRecord.none }

/-- Program load (spec/70_reset_and_hazards.md R244): `N <- n` and `IMem(i) <- w[i]` for `i < n`; a word at index `n` or
above stays as it was and is not fetched. -/
def State.loadWords (s : State) (words : List InstrWord) : State :=
  { s with len := BitVec.ofNat Config.pcW words.length, imem := words ++ s.imem.drop words.length }

/-- `run <- RUNNING` (R40). -/
def State.startRun (s : State) : State := { s with run := .running }

/-- The index asked for, if `0 <= i < bound`. -/
def hostIndex (bound : Nat) (i : Int) : Option (Fin bound) :=
  if h : 0 ≤ i ∧ i < bound then some ⟨i.toNat, by omega⟩ else none

/-- A write operation: only in IDLE (R40). -/
def State.whenIdle (s : State) (t : State) : State × HostAnswer :=
  if s.run = .idle then (t, .done) else (s, .refused)

/-- A read operation: in IDLE, HALTED and FAULTED (R40). -/
def State.whenNotRunning (s : State) (a : HostAnswer) : State × HostAnswer :=
  if s.run = .running then (s, .refused) else (s, a)

/-- One host operation: the state it leaves and what the block answers (R40). -/
def hostOp (op : HostOp) (s : State) : State × HostAnswer :=
  match op with
  | .reset => (s.hostReset, .done)
  | .loadProgram words => if words.length ≤ Config.imemCapacity then s.whenIdle (s.loadWords words) else (s, .refused)
  | .writeAcc v => s.whenIdle (s.setAcc v)
  | .writeReg i v =>
    match hostIndex Config.numRegs i with
    | none => (s, .refused)
    | some r => s.whenIdle (s.writeReg r v)
  | .writeMem a v =>
    match hostIndex Config.memWords a with
    | none => (s, .refused)
    | some b => s.whenIdle (s.writeMem b v)
  | .start => s.whenIdle s.startRun
  | .readRun => (s, .runState s.run)
  | .readAcc => s.whenNotRunning (.word s.acc)
  | .readPc => s.whenNotRunning (.index s.pc)
  | .readLen => s.whenNotRunning (.index s.len)
  | .readFault => s.whenNotRunning (.faultRecord s.fault)
  | .readReg i =>
    match hostIndex Config.numRegs i with
    | none => (s, .refused)
    | some r => s.whenNotRunning (.word (s.readReg r))
  | .readMem a =>
    match hostIndex Config.memWords a with
    | none => (s, .refused)
    | some b => s.whenNotRunning (.word (s.readMem b))
  | .readImem i =>
    match hostIndex s.len.toNat i with
    | none => (s, .refused)
    | some k => s.whenNotRunning (.instrWord (s.imemWord k))

/-- A sequence of host operations with no core step between them: the state at its end. -/
def hostOps : List HostOp → State → State
  | [], s => s
  | op :: ops, s => hostOps ops (hostOp op s).1

/-- The outcome of a run (R42, spec/40_execution_cycle.md R112). -/
inductive RunOutcome where
  /-- The run halted; its result is the accumulator. -/
  | success (result : Word)
  /-- The run faulted; its outcome is the fault record. -/
  | failure (record : FaultRecord)
deriving DecidableEq, Repr

/-- The outcome that the host reads once the run has ended, and none before (R42, spec/40_execution_cycle.md R113). -/
def State.outcome (s : State) : Option RunOutcome :=
  match s.run with
  | .halted => some (.success s.acc)
  | .faulted => some (.failure s.fault)
  | .idle => none
  | .running => none

end Sys2Proof.Machine
end

