-- ==== Sys2Proof/Safety.lean ====
section
/-! DEFINITION. The terms that claims about whole runs are stated in: the reachable states, the invariant of the machine,
and the programs whose every word passes every check. -/

namespace Sys2Proof.Machine

/-- The states that power-up, core steps and host operations reach, in any order (spec/10_state.md R31, R39, R40;
spec/70_reset_and_hazards.md R241: an operation lands between two steps). -/
inductive Reachable : State → Prop where
  | powerUp : Reachable State.reset
  | coreStep {s t : State} : Reachable s → step s = .next t → Reachable t
  | hostAct {s : State} (op : HostOp) : Reachable s → Reachable (hostOp op s).1

/-- The invariant of the machine. -/
structure Inv (s : State) : Prop where
  /-- Data memory is in its canonical form. -/
  memWf : s.mem.wf = true
  /-- `N <= IMEM_CAPACITY` (spec/00_scope.md R7). -/
  lenFits : s.len.toNat ≤ Config.imemCapacity
  /-- Every word below `N` has been loaded (spec/10_state.md R34). -/
  loaded : s.len.toNat ≤ s.imem.length
  /-- `0 <= pc <= N` (spec/10_state.md R25). -/
  pcWithin : s.pc.toNat ≤ s.len.toNat
  /-- IDLE is entered by reset alone, and nothing moves `pc` there (spec/70_reset_and_hazards.md R242). -/
  idlePc : s.run = .idle → s.pc = 0
  /-- HALTED is entered at `pc = N` alone (spec/40_execution_cycle.md R102). -/
  haltedPc : s.run = .halted → s.pc = s.len
  /-- A run that has not faulted holds no fault record (spec/10_state.md R33). -/
  noRecord : s.run ≠ .faulted → s.fault = FaultRecord.none
  /-- A faulted run holds one of the causes 2 to 5, with the `pc` it faulted at (spec/60_exceptions.md R201, R202). -/
  record : s.run = .faulted → 2 ≤ s.fault.cause.toNat ∧ s.fault.cause.toNat ≤ 5 ∧ s.fault.fPc = s.pc ∧ s.pc.toNat < s.len.toNat

/-- Every word of the loaded program encodes an instruction that passes every operand check. -/
def State.programChecked (s : State) : Prop :=
  ∀ k, k < s.len.toNat → ∃ i, decode (s.imemWord k) = .instr i ∧ i.wellFormed s.len.toNat = true

/-- The core has not faulted, it stands inside or at the end of its program, and its program passes every check. -/
structure State.Checked (s : State) : Prop where
  /-- No step has failed (spec/10_state.md R30). -/
  notFaulted : s.run ≠ .faulted
  /-- `0 <= pc <= N` (spec/10_state.md R25). -/
  pcWithin : s.pc.toNat ≤ s.len.toNat
  /-- No word of the program can fail a check (spec/40_execution_cycle.md R107). -/
  program : s.programChecked

end Sys2Proof.Machine

namespace Sys2Proof

/-- The instructions that write the accumulator when they succeed (spec/10_state.md R20). -/
def Instr.writesAcc : Instr → Bool
  | .load _ | .r2aLoad _ | .m2aLoad _ | .iAdd _ => true
  | .noop | .m2rLoad _ _ | .a2rStore _ | .a2mStore _ | .r2mStore _ _ | .jump _ | .jumpNeg _ => false

/-- The instructions that read the accumulator (spec/10_state.md R20). -/
def Instr.readsAcc : Instr → Bool
  | .a2rStore _ | .a2mStore _ | .iAdd _ | .jumpNeg _ => true
  | .noop | .load _ | .r2aLoad _ | .m2rLoad _ _ | .m2aLoad _ | .r2mStore _ _ | .jump _ => false

/-- The register operand, for the instructions that reach the register file (spec/10_state.md R23). -/
def Instr.regOperand : Instr → Option Word
  | .r2aLoad r | .m2rLoad _ r | .a2rStore r | .r2mStore r _ => some r
  | .noop | .load _ | .m2aLoad _ | .a2mStore _ | .iAdd _ | .jump _ | .jumpNeg _ => none

/-- The register operand of an instruction that writes a register (spec/10_state.md R23). -/
def Instr.writtenReg : Instr → Option Word
  | .m2rLoad _ r | .a2rStore r => some r
  | .noop | .load _ | .r2aLoad _ | .m2aLoad _ | .a2mStore _ | .r2mStore _ _ | .iAdd _ | .jump _ | .jumpNeg _ => none

/-- The address operand, for the instructions that reach data memory (spec/20_memory.md R53). -/
def Instr.addrOperand : Instr → Option Word
  | .m2rLoad a _ | .m2aLoad a | .a2mStore a | .r2mStore _ a => some a
  | .noop | .load _ | .r2aLoad _ | .a2rStore _ | .iAdd _ | .jump _ | .jumpNeg _ => none

/-- The address operand of an instruction that stores to data memory (spec/20_memory.md R53). -/
def Instr.storeAddr : Instr → Option Word
  | .a2mStore a | .r2mStore _ a => some a
  | .noop | .load _ | .r2aLoad _ | .m2rLoad _ _ | .m2aLoad _ | .a2rStore _ | .iAdd _ | .jump _ | .jumpNeg _ => none

/-- The target operand of a jump (spec/43_control_transfer.md R170, R171). -/
def Instr.tgtOperand : Instr → Option Word
  | .jump t | .jumpNeg t => some t
  | .noop | .load _ | .r2aLoad _ | .m2rLoad _ _ | .m2aLoad _ | .a2rStore _ | .a2mStore _ | .r2mStore _ _ | .iAdd _ => none

end Sys2Proof
end

