-- ==== Sys2Proof/Certificates/Slice0/Obligations.lean ====
section
/-! DEFINITION. The statements for the provers. A rule is cited as R<n> of spec/. -/

open Sys2Proof Sys2Proof.Machine

/-! ### Encoding -/

/-- R79: the words the spec writes out decode to the instructions it writes beside them. -/
def Obligations.WordsOfTheSpecDecodeAsItWritesThem : Prop :=
  decode 0x00_00000000_00000000#72 = .instr .noop ∧
  decode 0x01_00000005_00000000#72 = .instr (.load 5) ∧
  decode 0x01_FFFFFFFD_00000000#72 = .instr (.load (-3)) ∧
  decode 0x02_00000000_00000000#72 = .instr (.r2aLoad 0) ∧
  decode 0x03_00000001_00000002#72 = .instr (.m2rLoad 1 2) ∧
  decode 0x04_000003FF_00000000#72 = .instr (.m2aLoad 1023) ∧
  decode 0x05_00000003_00000000#72 = .instr (.a2rStore 3) ∧
  decode 0x06_00000064_00000000#72 = .instr (.a2mStore 100) ∧
  decode 0x07_00000001_000000C8#72 = .instr (.r2mStore 1 200) ∧
  decode 0x08_FFFFFFFF_00000000#72 = .instr (.iAdd (-1)) ∧
  decode 0x09_00000002_00000000#72 = .instr (.jump 2) ∧
  decode 0x0A_00000000_00000000#72 = .instr (.jumpNeg 0)

/-- R75: the decode function case by case, `OP ++ A ++ B` being the word and `none` the spec's Illegal. -/
def Obligations.DecodeFollowsTheCaseList : Prop :=
  (∀ a b : Word,
    (decode (0x00#8 ++ a ++ b)).instr? = (if a = 0 ∧ b = 0 then some .noop else none) ∧
    (decode (0x01#8 ++ a ++ b)).instr? = (if b = 0 then some (.load a) else none) ∧
    (decode (0x02#8 ++ a ++ b)).instr? = (if b = 0 then some (.r2aLoad a) else none) ∧
    (decode (0x03#8 ++ a ++ b)).instr? = some (.m2rLoad a b) ∧
    (decode (0x04#8 ++ a ++ b)).instr? = (if b = 0 then some (.m2aLoad a) else none) ∧
    (decode (0x05#8 ++ a ++ b)).instr? = (if b = 0 then some (.a2rStore a) else none) ∧
    (decode (0x06#8 ++ a ++ b)).instr? = (if b = 0 then some (.a2mStore a) else none) ∧
    (decode (0x07#8 ++ a ++ b)).instr? = some (.r2mStore a b) ∧
    (decode (0x08#8 ++ a ++ b)).instr? = (if b = 0 then some (.iAdd a) else none) ∧
    (decode (0x09#8 ++ a ++ b)).instr? = (if b = 0 then some (.jump a) else none) ∧
    (decode (0x0A#8 ++ a ++ b)).instr? = (if b = 0 then some (.jumpNeg a) else none)) ∧
  ∀ (op : BitVec 8) (a b : Word), 0x0B ≤ op.toNat → (decode (op ++ a ++ b)).instr? = none

/-- R76: the encode function, and that it and decode are inverse to each other. -/
def Obligations.DecodeAndEncodeAreInverse : Prop :=
  (∀ v a r : Word,
    encode .noop = 0x00_00000000_00000000#72 ∧
    encode (.load v) = 0x01#8 ++ v ++ 0#32 ∧
    encode (.r2aLoad v) = 0x02#8 ++ v ++ 0#32 ∧
    encode (.m2rLoad a r) = 0x03#8 ++ a ++ r ∧
    encode (.m2aLoad v) = 0x04#8 ++ v ++ 0#32 ∧
    encode (.a2rStore v) = 0x05#8 ++ v ++ 0#32 ∧
    encode (.a2mStore v) = 0x06#8 ++ v ++ 0#32 ∧
    encode (.r2mStore r a) = 0x07#8 ++ r ++ a ∧
    encode (.iAdd v) = 0x08#8 ++ v ++ 0#32 ∧
    encode (.jump v) = 0x09#8 ++ v ++ 0#32 ∧
    encode (.jumpNeg v) = 0x0A#8 ++ v ++ 0#32) ∧
  (∀ i : Instr, decode (encode i) = .instr i) ∧
  ∀ (w : InstrWord) (i : Instr), decode w = .instr i → encode i = w

/-- R74: a word encodes a row's instruction, with the operands the row's columns A and B name, iff its masked bits are
the row's match; and no two rows match one word. -/
def Obligations.MaskAndMatchDecideWhatAWordEncodes : Prop :=
  (∀ w : InstrWord,
    (w &&& 0xFF_FFFFFFFF_FFFFFFFF#72 = 0x00_00000000_00000000#72 ↔ decode w = .instr .noop) ∧
    (w &&& 0xFF_00000000_FFFFFFFF#72 = 0x01_00000000_00000000#72 ↔ decode w = .instr (.load (w.extractLsb' 32 32))) ∧
    (w &&& 0xFF_00000000_FFFFFFFF#72 = 0x02_00000000_00000000#72 ↔ decode w = .instr (.r2aLoad (w.extractLsb' 32 32))) ∧
    (w &&& 0xFF_00000000_00000000#72 = 0x03_00000000_00000000#72 ↔
      decode w = .instr (.m2rLoad (w.extractLsb' 32 32) (w.extractLsb' 0 32))) ∧
    (w &&& 0xFF_00000000_FFFFFFFF#72 = 0x04_00000000_00000000#72 ↔ decode w = .instr (.m2aLoad (w.extractLsb' 32 32))) ∧
    (w &&& 0xFF_00000000_FFFFFFFF#72 = 0x05_00000000_00000000#72 ↔ decode w = .instr (.a2rStore (w.extractLsb' 32 32))) ∧
    (w &&& 0xFF_00000000_FFFFFFFF#72 = 0x06_00000000_00000000#72 ↔ decode w = .instr (.a2mStore (w.extractLsb' 32 32))) ∧
    (w &&& 0xFF_00000000_00000000#72 = 0x07_00000000_00000000#72 ↔
      decode w = .instr (.r2mStore (w.extractLsb' 32 32) (w.extractLsb' 0 32))) ∧
    (w &&& 0xFF_00000000_FFFFFFFF#72 = 0x08_00000000_00000000#72 ↔ decode w = .instr (.iAdd (w.extractLsb' 32 32))) ∧
    (w &&& 0xFF_00000000_FFFFFFFF#72 = 0x09_00000000_00000000#72 ↔ decode w = .instr (.jump (w.extractLsb' 32 32))) ∧
    (w &&& 0xFF_00000000_FFFFFFFF#72 = 0x0A_00000000_00000000#72 ↔ decode w = .instr (.jumpNeg (w.extractLsb' 32 32)))) ∧
  ∀ (w : InstrWord), ∀ r₁ ∈ opcodeTable, ∀ r₂ ∈ opcodeTable, r₁.accepts w = true → r₂.accepts w = true → r₁ = r₂

/-- R77 and R205: which words are illegal, that fetching one raises IllegalInstruction with `pc` and the word, and
(R78) that every other word is the word of an instruction. -/
def Obligations.IllegalWordsAreThoseNamedAndFaultWhenFetched : Prop :=
  (∀ w : InstrWord, (∃ why, decode w = .illegal why) ↔
    (0x0B ≤ (w.extractLsb' 64 8).toNat ∨
      (w.extractLsb' 64 8).toNat = 0x00 ∧ (w.extractLsb' 32 32 ≠ 0 ∨ w.extractLsb' 0 32 ≠ 0) ∨
      (w.extractLsb' 64 8).toNat ∈ [0x01, 0x02, 0x04, 0x05, 0x06, 0x08, 0x09, 0x0A] ∧ w.extractLsb' 0 32 ≠ 0)) ∧
  (∀ w : InstrWord, (∀ why, decode w ≠ .illegal why) → ∃ i, w = encode i) ∧
  ∀ (s : State) (why : Illegal), s.run = .running → s.pc.toNat < s.len.toNat →
    decode (s.imemWord s.pc.toNat) = .illegal why →
    step s = .next { s with run := .faulted
                            fault := { cause := 5, fPc := s.pc, fValue := 0, fLen := 0, fWord := s.imemWord s.pc.toNat } }

/-! ### The step -/

/-- R101: when the word at `pc` decodes to an instruction, the step is that instruction's exec, and an instruction that
leaves the core RUNNING retires one event. -/
def Obligations.StepRunsTheDecodedInstruction : Prop :=
  ∀ (s : State) (i : Instr), s.run = .running → s.pc.toNat < s.len.toNat →
    decode (s.imemWord s.pc.toNat) = .instr i →
    ∃ t, exec i s = .next t ∧
      step s = .next (if t.run = .running
        then { t with retired := t.retired ++ [⟨s.pc, s.imemWord s.pc.toNat, t.acc⟩] } else t)

/-- R102: a step at `pc = N` halts, changes nothing else and retires nothing; the run's result is then `acc`; and with
`N = 0` the first step after the host's start halts so. -/
def Obligations.StepAtTheEndHaltsCleanly : Prop :=
  (∀ s : State, s.run = .running → s.pc.toNat = s.len.toNat →
    step s = .next { s with run := .halted } ∧ State.outcome { s with run := .halted } = some (.success s.acc)) ∧
  ∀ s : State, s.run = .idle → s.pc = 0 → s.len = 0 → step (hostOp .start s).1 = .next { s with run := .halted }

/-- R202: OutOfBoundsFetch is raised exactly by a fetch at `pc > N`, with `pc` in both fields, and no step from a
reachable state raises it. -/
def Obligations.FetchPastTheEndFaultsAndIsUnreachable : Prop :=
  (∀ s : State, s.run = .running → s.len.toNat < s.pc.toNat →
    step s = .next { s with run := .faulted
                            fault := { cause := 1, fPc := s.pc, fValue := s.pc, fLen := 0, fWord := 0 } }) ∧
  (∀ s t : State, s.run = .running → step s = .next t → t.run = .faulted → t.fault.cause = 1 →
    s.len.toNat < s.pc.toNat) ∧
  ∀ s t : State, Reachable s → s.run = .running → step s = .next t → t.fault.cause ≠ 1

/-- R107 and R206: which check decides how a step ends: the halt check, the fetch bound, decode, then the instruction's
operand checks with the memory address before the register. The first check that fails is the one reported; when none
fails the core goes on RUNNING. -/
def Obligations.FirstFailingCheckIsTheOneReported : Prop :=
  ∀ s : State, s.run = .running → ∃ t, step s = .next t ∧
    if s.pc.toNat = s.len.toNat then t = { s with run := .halted }
    else if s.len.toNat < s.pc.toNat then t.run = .faulted ∧ t.fault = ⟨1, s.pc, s.pc, 0, 0⟩
    else match decode (s.imemWord s.pc.toNat) with
      | .illegal _ => t.run = .faulted ∧ t.fault = ⟨5, s.pc, 0, 0, s.imemWord s.pc.toNat⟩
      | .instr i =>
        (∀ a, i.addrOperand = some a → ¬ (0 ≤ a.toInt ∧ a.toInt < 1024) →
          t.run = .faulted ∧ t.fault = ⟨3, s.pc, a, 0, 0⟩) ∧
        (∀ r, i.regOperand = some r → (∀ a, i.addrOperand = some a → 0 ≤ a.toInt ∧ a.toInt < 1024) →
          ¬ (0 ≤ r.toInt ∧ r.toInt < 4) → t.run = .faulted ∧ t.fault = ⟨2, s.pc, r, 0, 0⟩) ∧
        (∀ x, i.tgtOperand = some x → ¬ (0 ≤ x.toInt ∧ x.toInt < s.len.toNat) →
          t.run = .faulted ∧ t.fault = ⟨4, s.pc, x, s.len, 0⟩) ∧
        ((∀ a, i.addrOperand = some a → 0 ≤ a.toInt ∧ a.toInt < 1024) →
          (∀ r, i.regOperand = some r → 0 ≤ r.toInt ∧ r.toInt < 4) →
          (∀ x, i.tgtOperand = some x → 0 ≤ x.toInt ∧ x.toInt < s.len.toNat) → t.run = .running)

/-- R104: a step that raises a fault changes the run state and the fault record and nothing else. -/
def Obligations.FaultingStepChangesOnlyRunAndRecord : Prop :=
  ∀ s t : State, s.run = .running → step s = .next t → t.run = .faulted →
    t.acc = s.acc ∧ (∀ r, t.readReg r = s.readReg r) ∧ (∀ a, t.readMem a = s.readMem a) ∧ t.pc = s.pc ∧
    t.len = s.len ∧ (∀ k, t.imemWord k = s.imemWord k) ∧
    t = { s with run := .faulted, fault := t.fault }

/-- R106 and R41: a step that executes an instruction successfully moves `pc` by the update policy (and `pc + 1` does
not wrap, R27) and emits one retire event; a step that halts or faults emits none. -/
def Obligations.SuccessfulStepMovesPcAndRetiresOnce : Prop :=
  ∀ s t : State, s.run = .running → step s = .next t →
    (t.run = .running → ∃ i, s.pc.toNat < s.len.toNat ∧ decode (s.imemWord s.pc.toNat) = .instr i ∧
      t.retired = s.retired ++ [⟨s.pc, s.imemWord s.pc.toNat, t.acc⟩] ∧
      (∀ x, i = .jump x → t.pc = x) ∧
      (∀ x, i = .jumpNeg x → s.acc.toInt < 0 → t.pc = x) ∧
      (∀ x, i = .jumpNeg x → ¬ s.acc.toInt < 0 → t.pc.toNat = s.pc.toNat + 1) ∧
      ((∀ x, i ≠ .jump x) → (∀ x, i ≠ .jumpNeg x) → t.pc.toNat = s.pc.toNat + 1)) ∧
    (t.run ≠ .running → t.retired = s.retired)

/-- R108: no step changes the instruction store or `N`. -/
def Obligations.NoStepChangesTheProgram : Prop :=
  ∀ s t : State, s.run = .running → step s = .next t → t.len = s.len ∧ t.imem = s.imem ∧ ∀ k, t.imemWord k = s.imemWord k

/-- Every step of every state, reachable or not, answers a next state: none ends in a fault or a refusal of the model
(how a step that is not taken answers is the model's choice, log 2). -/
def Obligations.EveryStepAnswersANextState : Prop :=
  ∀ s : State, ∃ t, step s = .next t

/-- R109 (and from R114): what a step does depends on `acc`, the registers, data memory, `pc`, `N` and the words below `N`
alone; not on the old fault record, and not on what the retire port has emitted. -/
def Obligations.StepDependsOnNothingElse : Prop :=
  ∀ s₁ s₂ : State, s₁.run = .running → s₂.run = .running → s₁.acc = s₂.acc → s₁.regs = s₂.regs →
    (∀ a, s₁.readMem a = s₂.readMem a) → s₁.pc = s₂.pc → s₁.len = s₂.len →
    (∀ k, k < s₁.len.toNat → s₁.imemWord k = s₂.imemWord k) →
    ∃ t₁ t₂ es, step s₁ = .next t₁ ∧ step s₂ = .next t₂ ∧ t₁.acc = t₂.acc ∧ t₁.regs = t₂.regs ∧
      (∀ a, t₁.readMem a = t₂.readMem a) ∧ t₁.pc = t₂.pc ∧ t₁.run = t₂.run ∧ t₁.len = t₂.len ∧
      (∀ k, k < t₁.len.toNat → t₁.imemWord k = t₂.imemWord k) ∧
      (t₁.run = .faulted → t₁.fault = t₂.fault) ∧
      t₁.retired = s₁.retired ++ es ∧ t₂.retired = s₂.retired ++ es

/-! ### The instructions -/

/-- R130: NOOP changes `pc` alone. -/
def Obligations.NoopOnlyIncrementsPc : Prop :=
  decode 0x00_00000000_00000000#72 = .instr .noop ∧
  ∀ s : State, exec .noop s = .next { s with pc := s.pc + 1 }

/-- R130's corner case: any number of NOOPs in a row change only `pc` (and the list of retired events). -/
def Obligations.NoopsInARowChangeOnlyPc : Prop :=
  ∀ (k : Nat) (s : State), s.run = .running → s.pc.toNat + k ≤ s.len.toNat →
    (∀ j, j < k → s.imemWord (s.pc.toNat + j) = 0x00_00000000_00000000#72) →
    ∃ t, Host.Core.run Sys2Proof.core k s = .next t ∧ t.pc.toNat = s.pc.toNat + k ∧
      t = { s with pc := t.pc, retired := t.retired }

/-- R131: LOAD puts its immediate into the accumulator and never fails. -/
def Obligations.LoadPutsItsImmediateInAcc : Prop :=
  ∀ (imm : Word) (s : State), decode (0x01#8 ++ imm ++ 0#32) = .instr (.load imm) ∧
    exec (.load imm) s = .next { s with acc := imm, pc := s.pc + 1 }

/-- R132: R2A_LOAD copies the named register into the accumulator, and faults on an index outside 0 to 3. -/
def Obligations.R2aLoadCopiesTheNamedRegister : Prop :=
  ∀ (r : Word) (s : State), decode (0x02#8 ++ r ++ 0#32) = .instr (.r2aLoad r) ∧
    (0 ≤ r.toInt ∧ r.toInt < 4 → ∃ k : Fin Config.numRegs, regIndex r = some k ∧ (k.val : Int) = r.toInt ∧
      exec (.r2aLoad r) s = .next { s with acc := s.readReg k, pc := s.pc + 1 }) ∧
    (¬ (0 ≤ r.toInt ∧ r.toInt < 4) →
      exec (.r2aLoad r) s = .next { s with run := .faulted, fault := ⟨2, s.pc, r, 0, 0⟩ })

/-- R133: M2R_LOAD copies the named memory word into the named register, leaving every other register; the address is
checked first. -/
def Obligations.M2rLoadCopiesAMemoryWordToARegister : Prop :=
  ∀ (a r : Word) (s : State), decode (0x03#8 ++ a ++ r) = .instr (.m2rLoad a r) ∧
    (0 ≤ a.toInt ∧ a.toInt < 1024 → 0 ≤ r.toInt ∧ r.toInt < 4 →
      ∃ k : Fin Config.numRegs, regIndex r = some k ∧ (k.val : Int) = r.toInt ∧
      ∃ t, exec (.m2rLoad a r) s = .next t ∧
        (∀ j, t.readReg j = if j = k then s.readMem a.toInt.toNat else s.readReg j) ∧
        t = { s with regs := t.regs, pc := s.pc + 1 }) ∧
    (¬ (0 ≤ a.toInt ∧ a.toInt < 1024) →
      exec (.m2rLoad a r) s = .next { s with run := .faulted, fault := ⟨3, s.pc, a, 0, 0⟩ }) ∧
    (0 ≤ a.toInt ∧ a.toInt < 1024 → ¬ (0 ≤ r.toInt ∧ r.toInt < 4) →
      exec (.m2rLoad a r) s = .next { s with run := .faulted, fault := ⟨2, s.pc, r, 0, 0⟩ })

/-- R134: M2A_LOAD copies the named memory word into the accumulator. -/
def Obligations.M2aLoadCopiesAMemoryWordToAcc : Prop :=
  ∀ (a : Word) (s : State), decode (0x04#8 ++ a ++ 0#32) = .instr (.m2aLoad a) ∧
    (0 ≤ a.toInt ∧ a.toInt < 1024 →
      exec (.m2aLoad a) s = .next { s with acc := s.readMem a.toInt.toNat, pc := s.pc + 1 }) ∧
    (¬ (0 ≤ a.toInt ∧ a.toInt < 1024) →
      exec (.m2aLoad a) s = .next { s with run := .faulted, fault := ⟨3, s.pc, a, 0, 0⟩ })

/-- R135: A2R_STORE copies the accumulator into the named register, leaving every other register. -/
def Obligations.A2rStoreCopiesAccToTheNamedRegister : Prop :=
  ∀ (r : Word) (s : State), decode (0x05#8 ++ r ++ 0#32) = .instr (.a2rStore r) ∧
    (0 ≤ r.toInt ∧ r.toInt < 4 → ∃ k : Fin Config.numRegs, regIndex r = some k ∧ (k.val : Int) = r.toInt ∧
      ∃ t, exec (.a2rStore r) s = .next t ∧ (∀ j, t.readReg j = if j = k then s.acc else s.readReg j) ∧
        t = { s with regs := t.regs, pc := s.pc + 1 }) ∧
    (¬ (0 ≤ r.toInt ∧ r.toInt < 4) →
      exec (.a2rStore r) s = .next { s with run := .faulted, fault := ⟨2, s.pc, r, 0, 0⟩ })

/-- R136: A2M_STORE writes the accumulator to the word it names and to no other word. -/
def Obligations.A2mStoreWritesAccToTheNamedWord : Prop :=
  ∀ (a : Word) (s : State), decode (0x06#8 ++ a ++ 0#32) = .instr (.a2mStore a) ∧
    (0 ≤ a.toInt ∧ a.toInt < 1024 → ∃ k, dataAddress a = some k ∧ (k.val : Int) = a.toInt ∧
      ∃ t, exec (.a2mStore a) s = .next t ∧ (∀ b, t.readMem b = if b = k.val then s.acc else s.readMem b) ∧
        t = { s with mem := t.mem, pc := s.pc + 1 }) ∧
    (¬ (0 ≤ a.toInt ∧ a.toInt < 1024) →
      exec (.a2mStore a) s = .next { s with run := .faulted, fault := ⟨3, s.pc, a, 0, 0⟩ })

/-- R137: R2M_STORE writes the named register to the word it names and to no other word; the address is checked
first. -/
def Obligations.R2mStoreWritesARegisterToTheNamedWord : Prop :=
  ∀ (r a : Word) (s : State), decode (0x07#8 ++ r ++ a) = .instr (.r2mStore r a) ∧
    (0 ≤ a.toInt ∧ a.toInt < 1024 → 0 ≤ r.toInt ∧ r.toInt < 4 →
      ∃ k, dataAddress a = some k ∧ (k.val : Int) = a.toInt ∧
      ∃ j : Fin Config.numRegs, regIndex r = some j ∧ (j.val : Int) = r.toInt ∧
      ∃ t, exec (.r2mStore r a) s = .next t ∧ (∀ b, t.readMem b = if b = k.val then s.readReg j else s.readMem b) ∧
        t = { s with mem := t.mem, pc := s.pc + 1 }) ∧
    (¬ (0 ≤ a.toInt ∧ a.toInt < 1024) →
      exec (.r2mStore r a) s = .next { s with run := .faulted, fault := ⟨3, s.pc, a, 0, 0⟩ }) ∧
    (0 ≤ a.toInt ∧ a.toInt < 1024 → ¬ (0 ≤ r.toInt ∧ r.toInt < 4) →
      exec (.r2mStore r a) s = .next { s with run := .faulted, fault := ⟨2, s.pc, r, 0, 0⟩ })

/-- R160 and R11: I_ADD adds its immediate to the accumulator modulo 2^32, read signed, and never fails. -/
def Obligations.IAddWrapsModuloTwoToThe32 : Prop :=
  ∀ (imm : Word) (s : State), decode (0x08#8 ++ imm ++ 0#32) = .instr (.iAdd imm) ∧
    ∃ v : Word, v.toInt = (s.acc.toInt + imm.toInt + 2 ^ 31) % 2 ^ 32 - 2 ^ 31 ∧
      exec (.iAdd imm) s = .next { s with acc := v, pc := s.pc + 1 }

/-- R170: JUMP sets `pc` to its absolute target, and faults, `pc` unchanged, on a target outside 0 to N-1. -/
def Obligations.JumpGoesToItsTarget : Prop :=
  ∀ (x : Word) (s : State), decode (0x09#8 ++ x ++ 0#32) = .instr (.jump x) ∧
    (0 ≤ x.toInt ∧ x.toInt < s.len.toNat →
      exec (.jump x) s = .next { s with pc := x } ∧ (x.toNat : Int) = x.toInt) ∧
    (¬ (0 ≤ x.toInt ∧ x.toInt < s.len.toNat) →
      exec (.jump x) s = .next { s with run := .faulted, fault := ⟨4, s.pc, x, s.len, 0⟩ })

/-- R171: JUMP_NEG goes to its target iff `acc` is negative, else on to the next instruction; its target is checked
whatever `acc` holds. -/
def Obligations.JumpNegGoesToItsTargetIfAccIsNegative : Prop :=
  ∀ (x : Word) (s : State), decode (0x0A#8 ++ x ++ 0#32) = .instr (.jumpNeg x) ∧
    (0 ≤ x.toInt ∧ x.toInt < s.len.toNat → s.acc.toInt < 0 →
      exec (.jumpNeg x) s = .next { s with pc := x } ∧ (x.toNat : Int) = x.toInt) ∧
    (0 ≤ x.toInt ∧ x.toInt < s.len.toNat → ¬ s.acc.toInt < 0 →
      exec (.jumpNeg x) s = .next { s with pc := s.pc + 1 }) ∧
    (¬ (0 ≤ x.toInt ∧ x.toInt < s.len.toNat) →
      exec (.jumpNeg x) s = .next { s with run := .faulted, fault := ⟨4, s.pc, x, s.len, 0⟩ })

/-- From R28: JUMP_NEG's one condition is bit 31 of the accumulator. -/
def Obligations.JumpNegConditionIsTheSignBit : Prop :=
  ∀ (x : Word) (s : State), 0 ≤ x.toInt ∧ x.toInt < s.len.toNat →
    exec (.jumpNeg x) s = .next { s with pc := if s.acc.getLsbD 31 then x else s.pc + 1 }

/-! ### Which instruction reaches what -/

/-- From R20: only the named instructions write the accumulator, and only the named ones read it: for every other one,
another accumulator gives the same result in every other field. -/
def Obligations.AccumulatorReadersAndWriters : Prop :=
  (∀ (i : Instr) (s t : State), i.writesAcc = false → exec i s = .next t → t.acc = s.acc) ∧
  ∀ (i : Instr) (s t : State) (v : Word), i.readsAcc = false → exec i s = .next t →
    ∃ t', exec i { s with acc := v } = .next t' ∧ t' = { t with acc := t'.acc } ∧
      (t'.acc = t.acc ∨ t.acc = s.acc ∧ t'.acc = v)

/-- From R23: an instruction with no register operand neither reads nor writes the register file, and the two that write
a register write only the one they name. -/
def Obligations.RegisterFileReachedOnlyByItsInstructions : Prop :=
  (∀ (i : Instr) (s t : State) (rs : Vector Word Config.numRegs), i.regOperand = none → exec i s = .next t →
    exec i { s with regs := rs } = .next { t with regs := rs }) ∧
  (∀ (i : Instr) (s t : State), i.writtenReg = none → exec i s = .next t → t.regs = s.regs) ∧
  ∀ (i : Instr) (s t : State) (r : Word), i.writtenReg = some r → exec i s = .next t →
    (regIndex r = none → t.regs = s.regs) ∧
    ∀ k, regIndex r = some k → ∀ j : Fin Config.numRegs, j ≠ k → t.readReg j = s.readReg j

/-- From R53 and R60: an instruction with no address operand neither reads nor writes data memory, and the two that
store change only the word at the address they name. -/
def Obligations.DataMemoryReachedOnlyByItsInstructions : Prop :=
  (∀ (i : Instr) (s t : State) (m : Memory), i.addrOperand = none → exec i s = .next t →
    exec i { s with mem := m } = .next { t with mem := m }) ∧
  (∀ (i : Instr) (s t : State), i.storeAddr = none → exec i s = .next t → t.mem = s.mem) ∧
  ∀ (i : Instr) (s t : State) (a : Word), i.storeAddr = some a → exec i s = .next t →
    (dataAddress a = none → t.mem = s.mem) ∧
    ∀ k, dataAddress a = some k → ∀ b : Nat, b ≠ k.val → t.readMem b = s.readMem b

/-- From R63: over any number of steps, a memory word that no executed store names still reads as it did. -/
def Obligations.MemoryWordKeepsItsValueUntilAStoreNamesIt : Prop :=
  ∀ (k : Nat) (s t : State) (a : Nat), Host.Core.run Sys2Proof.core k s = .next t →
    (∀ j u i x, j < k → Host.Core.run Sys2Proof.core j s = .next u → u.run = .running → u.pc.toNat < u.len.toNat →
      decode (u.imemWord u.pc.toNat) = .instr i → i.storeAddr = some x → x.toInt ≠ (a : Int)) →
    t.readMem a = s.readMem a

/-- Two memories in the canonical form that read alike at every address are one and the same. The canonical form
(`Memory.wf`) is the model's own choice of how to hold the memory of R52 and no rule of the spec (log 1). -/
def Obligations.CanonicalMemoriesThatReadAlikeAreEqual : Prop :=
  ∀ m₁ m₂ : Memory, m₁.wf = true → m₂.wf = true → (∀ a, m₁.read a = m₂.read a) → m₁ = m₂

/-! ### Runs -/

/-- From R31 and R218: the transitions of the run state, by a step and by a host operation, and that there is no other;
and in IDLE, HALTED and FAULTED, where no step is taken, all state survives. (That the model's step answers the same
state there is the model's choice, log 2.) -/
def Obligations.RunStateChangesOnlyAsTabled : Prop :=
  (∀ s t : State, step s = .next t →
    (s.run ≠ .running → t = s) ∧
    (s.run = .running → t.run ≠ .idle ∧ (t.run = .halted ↔ s.pc = s.len))) ∧
  ∀ (op : HostOp) (s : State), (hostOp op s).1.run =
    if op = .reset then .idle else if op = .start ∧ s.run = .idle then .running else s.run

/-- From R32: HALTED and FAULTED are terminal: no number of steps and no host operation but reset changes anything, reset
leaves them, and the state can be read in them. (That the step of such a core answers the same state is the model's
choice, log 2.) -/
def Obligations.HaltedAndFaultedAreTerminal : Prop :=
  ∀ s : State, s.run = .halted ∨ s.run = .faulted →
    (∀ k, Host.Core.run Sys2Proof.core k s = .next s) ∧
    (∀ op : HostOp, op ≠ .reset → (hostOp op s).1 = s) ∧
    (hostOp .reset s).1.run = .idle ∧
    hostOp .readAcc s = (s, .word s.acc) ∧ hostOp .readPc s = (s, .index s.pc) ∧
    hostOp .readLen s = (s, .index s.len) ∧ hostOp .readFault s = (s, .faultRecord s.fault) ∧
    (∀ r : Fin Config.numRegs, hostOp (.readReg r.val) s = (s, .word (s.readReg r))) ∧
    ∀ a : Fin Config.memWords, hostOp (.readMem a.val) s = (s, .word (s.readMem a))

/-- From R112 and R208: a run that has ended in `k` steps ended in exactly one step, before which it was RUNNING and
after which nothing changes (log 2); so the fault record is that of the first and only fault. -/
def Obligations.RunEndsInOneStepOnly : Prop :=
  ∀ (k : Nat) (s t : State), s.run = .running → Host.Core.run Sys2Proof.core k s = .next t → t.run ≠ .running →
    ∃ j u, j < k ∧ Host.Core.run Sys2Proof.core j s = .next u ∧ u.run = .running ∧ step u = .next t ∧
      (∀ m v, m ≤ j → Host.Core.run Sys2Proof.core m s = .next v → v.run = .running) ∧
      ∀ m, j < m → Host.Core.run Sys2Proof.core m s = .next t

/-- R42: what the host reads when a run has ended. -/
def Obligations.OutcomeIsTheAccumulatorOrTheFaultRecord : Prop :=
  ∀ s : State,
    (s.run = .halted → s.outcome = some (.success s.acc) ∧ hostOp .readAcc s = (s, .word s.acc)) ∧
    (s.run = .faulted → s.outcome = some (.failure s.fault) ∧ hostOp .readFault s = (s, .faultRecord s.fault))

/-- From R111: a JUMP to its own index runs for ever: after any number of steps the core is still RUNNING there, one
event retired a step, and nothing else has changed. -/
def Obligations.JumpToItselfNeverEnds : Prop :=
  ∀ (k : Nat) (s : State), s.run = .running → s.pc.toNat < s.len.toNat → s.pc.toNat < 2 ^ 31 →
    decode (s.imemWord s.pc.toNat) = .instr (.jump s.pc) →
    ∃ t, Host.Core.run Sys2Proof.core k s = .next t ∧ t.run = .running ∧ t.pc = s.pc ∧
      t.retired.length = s.retired.length + k ∧ t = { s with retired := t.retired }

/-- That the core has not faulted, `pc` is at most `N`, and every word of the program encodes an instruction that passes
every operand check, is kept by every step; so such a program never faults, however long it runs (from R24, R54, R77, R107,
R170 and R171: no other check exists; that a halted core answers the same state is log 2). -/
def Obligations.CheckedProgramNeverFaults : Prop :=
  (∀ s t : State, s.Checked → step s = .next t → t.Checked) ∧
  ∀ s : State, s.Checked → ∀ k, ∃ t, Host.Core.run Sys2Proof.core k s = .next t ∧ t.Checked ∧ t.run ≠ .faulted

/-! ### The invariant -/

/-- The invariant holds in the state after power-up and reset. -/
def Obligations.InvariantHoldsAtReset : Prop := Inv State.reset

/-- Every step keeps the invariant, from every state that has it: data memory canonical, `N` within the capacity and the
loaded words, `0 <= pc <= N`, HALTED only at the end, a record of causes 2 to 5 exactly when FAULTED. -/
def Obligations.EveryStepKeepsTheInvariant : Prop :=
  ∀ s t : State, Inv s → step s = .next t → Inv t

/-- Every host operation keeps the invariant. -/
def Obligations.EveryHostOperationKeepsTheInvariant : Prop :=
  ∀ (op : HostOp) (s : State), Inv s → Inv (hostOp op s).1

/-- From R25 and R27: in every state that power-up, steps and host operations reach, `0 <= pc <= N <= IMEM_CAPACITY <=
2^31`. -/
def Obligations.ReachableStatesHavePcWithinTheProgram : Prop :=
  ∀ s : State, Reachable s →
    s.pc.toNat ≤ s.len.toNat ∧ s.len.toNat ≤ Config.imemCapacity ∧ Config.imemCapacity ≤ 2 ^ 31

/-! ### Reset and the host -/

/-- R240: reset is never refused; it zeroes the state and the fault record, sets IDLE, and keeps `N` and the instruction
store. (The list of retired events is the model's own field, log 3, and nothing is said of it.) -/
def Obligations.HostResetZeroesAllButTheProgram : Prop :=
  ∀ s : State, ∃ t, hostOp .reset s = (t, .done) ∧ (∀ r, t.readReg r = 0) ∧ (∀ a, t.readMem a = 0) ∧
    t = { s with acc := 0, regs := t.regs, mem := t.mem, pc := 0, run := .idle, fault := ⟨0, 0, 0, 0, 0⟩,
                 retired := t.retired }

/-- From R39: the values after power-up, before any reset. (The instruction store is unspecified then and nothing is said of
it; that the model's state after reset is the power-up one is log 9.) -/
def Obligations.PowerUpStateIsZeroedAndIdle : Prop :=
  State.reset.acc = 0 ∧ (∀ r, State.reset.readReg r = 0) ∧ (∀ a, State.reset.readMem a = 0) ∧ State.reset.pc = 0 ∧
    State.reset.run = .idle ∧ State.reset.fault = ⟨0, 0, 0, 0, 0⟩ ∧ State.reset.len = 0

/-- R244: load_program is allowed only in IDLE and for `n <= IMEM_CAPACITY`; it sets `N` and the words below it,
unchecked, and changes no other state. -/
def Obligations.ProgramLoadSetsLengthAndWords : Prop :=
  ∀ (ws : List InstrWord) (s : State),
    (s.run = .idle → ws.length ≤ Config.imemCapacity →
      ∃ t, hostOp (.loadProgram ws) s = (t, .done) ∧ t.len.toNat = ws.length ∧
        (∀ (k : Nat) (w : InstrWord), ws[k]? = some w → t.imemWord k = w) ∧ t = { s with len := t.len, imem := t.imem }) ∧
    (s.run ≠ .idle ∨ Config.imemCapacity < ws.length → hostOp (.loadProgram ws) s = (s, .refused))

/-- From R40: the host's preloads and start: what each does in IDLE, and that it is refused, changing nothing, out of
IDLE or out of range. -/
def Obligations.HostPreloadsAndStartActInIdleOnly : Prop :=
  ∀ s : State,
    (s.run = .idle →
      (∀ v, hostOp (.writeAcc v) s = ({ s with acc := v }, .done)) ∧
      (∀ (r : Fin Config.numRegs) (v : Word), ∃ t, hostOp (.writeReg r.val v) s = (t, .done) ∧
        (∀ j, t.readReg j = if j = r then v else s.readReg j) ∧ t = { s with regs := t.regs }) ∧
      (∀ (a : Fin Config.memWords) (v : Word), ∃ t, hostOp (.writeMem a.val v) s = (t, .done) ∧
        (∀ b, t.readMem b = if b = a.val then v else s.readMem b) ∧ t = { s with mem := t.mem }) ∧
      hostOp .start s = ({ s with run := .running }, .done)) ∧
    (s.run ≠ .idle → ∀ (i : Int) (v : Word), hostOp (.writeAcc v) s = (s, .refused) ∧
      hostOp (.writeReg i v) s = (s, .refused) ∧ hostOp (.writeMem i v) s = (s, .refused) ∧
      hostOp .start s = (s, .refused)) ∧
    ∀ (i : Int) (v : Word), (¬ (0 ≤ i ∧ i < 4) → hostOp (.writeReg i v) s = (s, .refused)) ∧
      (¬ (0 ≤ i ∧ i < 1024) → hostOp (.writeMem i v) s = (s, .refused))

/-- From R40: the host's reads: `run` at any time, everything else while the core is not RUNNING and the index is in
range; refused otherwise; and no read changes anything. -/
def Obligations.HostReadsAnswerTheStateAndChangeNothing : Prop :=
  ∀ s : State,
    hostOp .readRun s = (s, .runState s.run) ∧
    (s.run ≠ .running →
      hostOp .readAcc s = (s, .word s.acc) ∧ hostOp .readPc s = (s, .index s.pc) ∧
      hostOp .readLen s = (s, .index s.len) ∧ hostOp .readFault s = (s, .faultRecord s.fault) ∧
      (∀ r : Fin Config.numRegs, hostOp (.readReg r.val) s = (s, .word (s.readReg r))) ∧
      (∀ a : Fin Config.memWords, hostOp (.readMem a.val) s = (s, .word (s.readMem a))) ∧
      ∀ k : Nat, k < s.len.toNat → hostOp (.readImem k) s = (s, .instrWord (s.imemWord k))) ∧
    (s.run = .running → ∀ i : Int,
      hostOp .readAcc s = (s, .refused) ∧ hostOp .readPc s = (s, .refused) ∧ hostOp .readLen s = (s, .refused) ∧
      hostOp .readFault s = (s, .refused) ∧ hostOp (.readReg i) s = (s, .refused) ∧
      hostOp (.readMem i) s = (s, .refused) ∧ hostOp (.readImem i) s = (s, .refused)) ∧
    ∀ i : Int, (¬ (0 ≤ i ∧ i < 4) → hostOp (.readReg i) s = (s, .refused)) ∧
      (¬ (0 ≤ i ∧ i < 1024) → hostOp (.readMem i) s = (s, .refused)) ∧
      (¬ (0 ≤ i ∧ i < s.len.toNat) → hostOp (.readImem i) s = (s, .refused))

/-- From R40 and R246: a refused operation changes nothing, whichever it is, and while the core is RUNNING every
operation but reset and the read of `run` is refused. -/
def Obligations.RefusedHostOperationChangesNothing : Prop :=
  (∀ (op : HostOp) (s : State), (hostOp op s).2 = .refused → (hostOp op s).1 = s) ∧
  ∀ (op : HostOp) (s : State), s.run = .running → op ≠ .reset → op ≠ .readRun → hostOp op s = (s, .refused)

/-- From R243 and R242: reset, load and start, from any state at all, leave a RUNNING core at instruction 0 of the loaded
program with everything zeroed; and in IDLE reset and load may come in either order. -/
def Obligations.BootSequenceStartsTheProgramAtZero : Prop :=
  ∀ (ws : List InstrWord) (s : State), ws.length ≤ Config.imemCapacity →
    (let t := hostOps [.reset, .loadProgram ws, .start] s
     t.run = .running ∧ t.pc = 0 ∧ t.acc = 0 ∧ (∀ r, t.readReg r = 0) ∧ (∀ a, t.readMem a = 0) ∧
      t.fault = ⟨0, 0, 0, 0, 0⟩ ∧ t.len.toNat = ws.length ∧
      ∀ (k : Nat) (w : InstrWord), ws[k]? = some w → t.imemWord k = w) ∧
    (s.run = .idle → hostOps [.loadProgram ws, .reset, .start] s = hostOps [.reset, .loadProgram ws, .start] s)

/-! ### The assembler syntax -/

/-- From R88: the two lines the spec assembles, and the words it gives for them. -/
def Obligations.AssembledExampleLinesGiveTheirWords : Prop :=
  Asm.assemble ["M2R_LOAD 1 R2".toList, "R2M_STORE R3 200".toList] =
    some [0x03_00000001_00000002#72, 0x07_00000003_000000C8#72]

/-- From R80, R84 and R88: a program of n accepted lines assembles, to n words, line k to the word at index k, each the
word of the instruction the line parses to; a rejected line leaves no program. -/
def Obligations.AssemblyKeepsLineOrderAndGivesLegalWords : Prop :=
  (∀ lines : List (List Char), (∀ line ∈ lines, ∃ i, Asm.parseLine line = .instr i) →
    ∃ ws, Asm.assemble lines = some ws) ∧
  (∀ (lines : List (List Char)) (ws : List InstrWord), Asm.assemble lines = some ws →
    ws.length = lines.length ∧
    ∀ (k : Nat) (line : List Char), lines[k]? = some line →
      ∃ i, Asm.parseLine line = .instr i ∧ ws[k]? = some (encode i)) ∧
  ∀ (lines : List (List Char)) (line : List Char) (why : Asm.ParseError), line ∈ lines →
    Asm.parseLine line = .error why → Asm.assemble lines = none
end

