-- ==== Sys2Proof/Laws/Word.lean ====
section
/-! SUPPORT. The bounds of the word types at the widths that spec/00_scope.md R7 gives them, and `pc + 1` as a number. -/

namespace Sys2Proof

theorem Word.toNat_lt (v : Word) : v.toNat < 2 ^ 32 := v.isLt

theorem PcWord.toNat_lt (p : PcWord) : p.toNat < 2 ^ 32 := p.isLt

theorem InstrWord.toNat_lt (w : InstrWord) : w.toNat < 2 ^ 72 := w.isLt

/-- A number of words that `PC_W` bits can hold is kept by `N`. -/
theorem PcWord.toNat_ofNat {n : Nat} (h : n < 2 ^ 32) : (BitVec.ofNat Config.pcW n).toNat = n := by
  rw [BitVec.toNat_ofNat]; exact Nat.mod_eq_of_lt h

/-- `pc + 1` is one more as a number, unless `pc` is the greatest value of `PC_W` bits (spec/10_state.md R27). -/
theorem PcWord.toNat_add_one {p : PcWord} (h : p.toNat + 1 < 2 ^ 32) : (p + 1).toNat = p.toNat + 1 := by
  rw [BitVec.toNat_add]; exact Nat.mod_eq_of_lt h

/-- Below `N`, `pc + 1` does not wrap (spec/10_state.md R27). -/
theorem PcWord.toNat_add_one_of_lt {p n : PcWord} (h : p.toNat < n.toNat) : (p + 1).toNat = p.toNat + 1 :=
  PcWord.toNat_add_one (by have := n.toNat_lt; omega)

end Sys2Proof
end

