-- ==== Sys2Proof/Laws/Decode.lean ====
section
/-! SUPPORT. The fields of a packed word, and a word as its fields. -/

namespace Sys2Proof

theorem packWord_toNat (op : BitVec 8) (a b : Word) :
    (packWord op a b).toNat = op.toNat * 2 ^ 64 + a.toNat * 2 ^ 32 + b.toNat := by
  have h : (packWord op a b).toNat = ((op.toNat <<< 32 ||| a.toNat) <<< 32) ||| b.toNat := by
    simp only [packWord]; rw [BitVec.toNat_append, BitVec.toNat_append]
  rw [h, ← Nat.shiftLeft_add_eq_or_of_lt b.toNat_lt, ← Nat.shiftLeft_add_eq_or_of_lt a.toNat_lt]
  simp only [Nat.shiftLeft_eq]; omega

@[simp] theorem opField_packWord (op : BitVec 8) (a b : Word) : opField (packWord op a b) = op := by
  apply BitVec.eq_of_toNat_eq
  rw [opField, BitVec.extractLsb'_toNat, packWord_toNat, Nat.shiftRight_eq_div_pow]
  simp only [Config.wordW, Nat.reduceMul]
  have := op.isLt; have := a.toNat_lt; have := b.toNat_lt; omega

@[simp] theorem fieldA_packWord (op : BitVec 8) (a b : Word) : fieldA (packWord op a b) = a := by
  apply BitVec.eq_of_toNat_eq
  rw [fieldA, BitVec.extractLsb'_toNat, packWord_toNat, Nat.shiftRight_eq_div_pow]
  simp only [Config.wordW]
  have := op.isLt; have := a.toNat_lt; have := b.toNat_lt; omega

@[simp] theorem fieldB_packWord (op : BitVec 8) (a b : Word) : fieldB (packWord op a b) = b := by
  apply BitVec.eq_of_toNat_eq
  rw [fieldB, BitVec.extractLsb'_toNat, packWord_toNat, Nat.shiftRight_eq_div_pow]
  simp only [Config.wordW]
  have := op.isLt; have := a.toNat_lt; have := b.toNat_lt; omega

/-- Every word is its three fields. -/
theorem packWord_fields (w : InstrWord) : packWord (opField w) (fieldA w) (fieldB w) = w := by
  apply BitVec.eq_of_toNat_eq
  rw [packWord_toNat]
  simp only [opField, fieldA, fieldB, BitVec.extractLsb'_toNat, Nat.shiftRight_eq_div_pow, Config.wordW, Nat.reduceMul]
  have := w.toNat_lt; omega

theorem packWord_inj {op op' : BitVec 8} {a a' b b' : Word} (h : packWord op a b = packWord op' a' b') :
    op = op' ∧ a = a' ∧ b = b' :=
  ⟨by simpa using congrArg opField h, by simpa using congrArg fieldA h, by simpa using congrArg fieldB h⟩

/-- A bitwise AND acts field by field. -/
theorem packWord_and (op op' : BitVec 8) (a a' b b' : Word) :
    packWord op a b &&& packWord op' a' b' = packWord (op &&& op') (a &&& a') (b &&& b') := by
  have h : (op ++ a) ++ b &&& (op' ++ a') ++ b' = ((op &&& op') ++ (a &&& a')) ++ (b &&& b') := by
    rw [← BitVec.and_append, ← BitVec.and_append]
  exact h

@[simp] theorem decode_packWord (op : BitVec 8) (a b : Word) : decode (packWord op a b) = decodeFields op a b := by
  simp only [decode, opField_packWord, fieldA_packWord, fieldB_packWord]

@[simp] theorem requireNoB_eq_instr {b : Word} {i j : Instr} :
    requireNoB b (.instr i) = .instr j ↔ b = 0 ∧ i = j := by
  unfold requireNoB; split <;> simp_all

@[simp] theorem requireNoAB_eq_instr {a b : Word} {i j : Instr} :
    requireNoAB a b (.instr i) = .instr j ↔ a = 0 ∧ b = 0 ∧ i = j := by
  unfold requireNoAB; split <;> simp_all

end Sys2Proof
end

