-- ==== Sys2Proof/Laws/HostOps.lean ====
section
/-! SUPPORT. The host operations: one lemma per field per update, and what an index check and a guard answer. -/

namespace Sys2Proof.Machine

/-! ### hostReset -/

@[simp] theorem State.hostReset_acc (s : State) : (s.hostReset).acc = 0 := rfl
@[simp] theorem State.hostReset_regs (s : State) : (s.hostReset).regs = Vector.replicate Config.numRegs 0 := rfl
@[simp] theorem State.hostReset_mem (s : State) : (s.hostReset).mem = [] := rfl
@[simp] theorem State.hostReset_pc (s : State) : (s.hostReset).pc = 0 := rfl
@[simp] theorem State.hostReset_run (s : State) : (s.hostReset).run = .idle := rfl
@[simp] theorem State.hostReset_fault (s : State) : (s.hostReset).fault = FaultRecord.none := rfl
@[simp] theorem State.hostReset_len (s : State) : (s.hostReset).len = s.len := rfl
@[simp] theorem State.hostReset_imem (s : State) : (s.hostReset).imem = s.imem := rfl
@[simp] theorem State.hostReset_retired (s : State) : (s.hostReset).retired = s.retired := rfl

/-! ### loadWords -/

@[simp] theorem State.loadWords_acc (s : State) (ws : List InstrWord) : (s.loadWords ws).acc = s.acc := rfl
@[simp] theorem State.loadWords_regs (s : State) (ws : List InstrWord) : (s.loadWords ws).regs = s.regs := rfl
@[simp] theorem State.loadWords_mem (s : State) (ws : List InstrWord) : (s.loadWords ws).mem = s.mem := rfl
@[simp] theorem State.loadWords_pc (s : State) (ws : List InstrWord) : (s.loadWords ws).pc = s.pc := rfl
@[simp] theorem State.loadWords_run (s : State) (ws : List InstrWord) : (s.loadWords ws).run = s.run := rfl
@[simp] theorem State.loadWords_fault (s : State) (ws : List InstrWord) : (s.loadWords ws).fault = s.fault := rfl
@[simp] theorem State.loadWords_len (s : State) (ws : List InstrWord) : (s.loadWords ws).len = BitVec.ofNat Config.pcW ws.length := rfl
@[simp] theorem State.loadWords_imem (s : State) (ws : List InstrWord) : (s.loadWords ws).imem = ws ++ s.imem.drop ws.length := rfl
@[simp] theorem State.loadWords_retired (s : State) (ws : List InstrWord) : (s.loadWords ws).retired = s.retired := rfl

/-! ### startRun -/

@[simp] theorem State.startRun_acc (s : State) : (s.startRun).acc = s.acc := rfl
@[simp] theorem State.startRun_regs (s : State) : (s.startRun).regs = s.regs := rfl
@[simp] theorem State.startRun_mem (s : State) : (s.startRun).mem = s.mem := rfl
@[simp] theorem State.startRun_pc (s : State) : (s.startRun).pc = s.pc := rfl
@[simp] theorem State.startRun_run (s : State) : (s.startRun).run = .running := rfl
@[simp] theorem State.startRun_fault (s : State) : (s.startRun).fault = s.fault := rfl
@[simp] theorem State.startRun_len (s : State) : (s.startRun).len = s.len := rfl
@[simp] theorem State.startRun_imem (s : State) : (s.startRun).imem = s.imem := rfl
@[simp] theorem State.startRun_retired (s : State) : (s.startRun).retired = s.retired := rfl

/-! ### The capacity -/

theorem one_le_imemCapacity : 1 ≤ Config.imemCapacity := Nat.succ_le_succ (Nat.zero_le _)

theorem imemCapacity_le : Config.imemCapacity ≤ 2147483648 := Config.imemCapacityIndex.isLt

/-! ### The shared checks -/

theorem hostIndex_of_inRange {bound : Nat} {i : Int} (k : Fin bound) (h : i = k.val) : hostIndex bound i = some k := by
  have hb := k.isLt
  have hi : 0 ≤ i ∧ i < bound := by omega
  simp only [hostIndex, dif_pos hi, Option.some.injEq]
  exact Fin.ext (by simp only; omega)

theorem hostIndex_of_outOfRange {bound : Nat} {i : Int} (h : ¬ (0 ≤ i ∧ i < bound)) : hostIndex bound i = none :=
  dif_neg h

theorem State.whenIdle_idle {s : State} (h : s.run = .idle) (t : State) : s.whenIdle t = (t, .done) := if_pos h

theorem State.whenIdle_refused {s : State} (h : s.run ≠ .idle) (t : State) : s.whenIdle t = (s, .refused) := if_neg h

theorem State.whenNotRunning_reads {s : State} (h : s.run ≠ .running) (a : HostAnswer) :
    s.whenNotRunning a = (s, a) := if_neg h

theorem State.whenNotRunning_refused {s : State} (h : s.run = .running) (a : HostAnswer) :
    s.whenNotRunning a = (s, .refused) := if_pos h

/-- Everything a guarded write can leave: the state as it was, or, in IDLE, the written state. -/
theorem State.whenIdle_cases (s t : State) :
    s.whenIdle t = (s, .refused) ∧ s.run ≠ .idle ∨ s.whenIdle t = (t, .done) ∧ s.run = .idle := by
  by_cases h : s.run = .idle
  · exact .inr ⟨s.whenIdle_idle h t, h⟩
  · exact .inl ⟨s.whenIdle_refused h t, h⟩

/-- A guarded read never changes the state. -/
@[simp] theorem State.whenNotRunning_fst (s : State) (a : HostAnswer) : (s.whenNotRunning a).1 = s := by
  unfold State.whenNotRunning; split <;> rfl

end Sys2Proof.Machine
end

