-- ==== Sys2Proof/Laws/Memory.lean ====
section
/-! SUPPORT. Data memory: what a read gives after a write, and that every operation keeps the canonical form. -/

namespace Sys2Proof.Machine

@[simp] theorem Memory.read_nil (a : Nat) : Memory.read [] a = 0 := rfl

@[simp] theorem Memory.read_cons (b : Nat) (v : Word) (m : Memory) (a : Nat) :
    Memory.read ((b, v) :: m) a = if b = a then v else Memory.read m a := rfl

theorem Memory.read_clear (m : Memory) (a b : Nat) :
    (Memory.clear m a).read b = if b = a then 0 else m.read b := by
  induction m with
  | nil => simp [Memory.clear]
  | cons c m ih =>
    obtain ⟨d, x⟩ := c
    by_cases hd : d = a
    · simp only [Memory.clear, hd, if_true, ih, Memory.read_cons]
      split <;> simp_all [eq_comm]
    · simp only [Memory.clear, hd, if_false, ih, Memory.read_cons]
      by_cases hb : b = a
      · subst hb; simp [hd]
      · simp [hb]

theorem Memory.read_place (m : Memory) (a b : Nat) (v : Word) (h : m.read a = 0 ∧ ∀ c ∈ m, c.1 ≠ a) :
    (Memory.place m a v).read b = if b = a then v else m.read b := by
  induction m with
  | nil => simp [Memory.place, eq_comm]
  | cons c m ih =>
    obtain ⟨d, x⟩ := c
    have hd : d ≠ a := h.2 (d, x) (by simp)
    by_cases hl : a < d
    · simp only [Memory.place, hl, if_true, Memory.read_cons, eq_comm (a := a)]
    · have ih' := ih ⟨by simpa [hd] using h.1, fun c hc => h.2 c (by simp [hc])⟩
      simp only [Memory.place, hl, if_false, Memory.read_cons, ih']
      by_cases hb : b = a
      · subst hb; simp [hd]
      · simp [hb]

theorem Memory.mem_clear {m : Memory} {a : Nat} {c : Nat × Word} : c ∈ Memory.clear m a ↔ c ∈ m ∧ c.1 ≠ a := by
  induction m with
  | nil => simp [Memory.clear]
  | cons e m ih =>
    obtain ⟨d, x⟩ := e
    by_cases hd : d = a
    · simp only [Memory.clear, hd, if_true, ih, List.mem_cons]
      constructor
      · exact fun h => ⟨.inr h.1, h.2⟩
      · rintro ⟨rfl | h, hc⟩
        · exact absurd rfl hc
        · exact ⟨h, hc⟩
    · simp only [Memory.clear, hd, if_false, List.mem_cons, ih]
      constructor
      · rintro (rfl | h)
        · exact ⟨.inl rfl, hd⟩
        · exact ⟨.inr h.1, h.2⟩
      · rintro ⟨rfl | h, hc⟩
        · exact .inl rfl
        · exact .inr ⟨h, hc⟩

/-- What a write can do, whatever form the memory is in: the word written, and no other, reads as written
(spec/20_memory.md R55, R60). -/
theorem Memory.read_write (m : Memory) (a b : Nat) (v : Word) :
    (m.write a v).read b = if b = a then v else m.read b := by
  by_cases hv : v = 0
  · subst hv; simp only [Memory.write, Memory.unlisted, if_true, Memory.read_clear]
  · have hp : (Memory.clear m a).read a = 0 ∧ ∀ c ∈ Memory.clear m a, c.1 ≠ a :=
      ⟨by simp [Memory.read_clear], fun c hc => (Memory.mem_clear.mp hc).2⟩
    simp only [Memory.write, Memory.unlisted, hv, if_false, Memory.read_place _ a b v hp, Memory.read_clear]
    split <;> rfl

theorem Memory.wf_cons {a : Nat} {v : Word} {m : Memory} :
    Memory.wf ((a, v) :: m) = true ↔ a < 1024 ∧ v ≠ 0 ∧ (∀ c ∈ m, a < c.1) ∧ m.wf = true := by
  simp only [Memory.wf, Bool.and_eq_true, decide_eq_true_eq, List.all_eq_true, and_assoc]; rfl

theorem Memory.wf_clear {m : Memory} (a : Nat) (h : m.wf = true) : (Memory.clear m a).wf = true := by
  induction m with
  | nil => rfl
  | cons c m ih =>
    obtain ⟨d, x⟩ := c
    obtain ⟨h1, h2, h3, h4⟩ := Memory.wf_cons.mp h
    by_cases hd : d = a
    · simpa only [Memory.clear, hd, if_true] using ih h4
    · simp only [Memory.clear, hd, if_false]
      exact Memory.wf_cons.mpr ⟨h1, h2, fun c hc => h3 c (Memory.mem_clear.mp hc).1, ih h4⟩

theorem Memory.mem_place {m : Memory} {a : Nat} {v : Word} {c : Nat × Word} (h : c ∈ Memory.place m a v) :
    c = (a, v) ∨ c ∈ m := by
  induction m with
  | nil => simpa [Memory.place] using h
  | cons e m ih =>
    obtain ⟨d, x⟩ := e
    by_cases hl : a < d
    · simpa [Memory.place, hl] using h
    · simp only [Memory.place, hl, if_false, List.mem_cons] at h ⊢
      rcases h with h | h
      · exact .inr (.inl h)
      · exact (ih h).imp id .inr

theorem Memory.wf_place {m : Memory} {a : Nat} {v : Word} (hm : m.wf = true) (ha : a < 1024) (hv : v ≠ 0)
    (hn : ∀ c ∈ m, c.1 ≠ a) : (Memory.place m a v).wf = true := by
  induction m with
  | nil => exact Memory.wf_cons.mpr ⟨ha, hv, by simp, rfl⟩
  | cons e m ih =>
    obtain ⟨d, x⟩ := e
    obtain ⟨h1, h2, h3, h4⟩ := Memory.wf_cons.mp hm
    by_cases hl : a < d
    · simp only [Memory.place, hl, if_true]
      refine Memory.wf_cons.mpr ⟨ha, hv, ?_, hm⟩
      intro c hc
      rcases List.mem_cons.mp hc with rfl | hc
      · exact hl
      · exact lt_trans hl (h3 c hc)
    · have hd : d ≠ a := hn (d, x) (by simp)
      simp only [Memory.place, hl, if_false]
      refine Memory.wf_cons.mpr ⟨h1, h2, ?_, ih h4 fun c hc => hn c (by simp [hc])⟩
      intro c hc
      rcases Memory.mem_place hc with rfl | hc
      · omega
      · exact h3 c hc

/-- A write inside data memory keeps the canonical form. -/
theorem Memory.wf_write {m : Memory} {a : Nat} (v : Word) (hm : m.wf = true) (ha : a < 1024) :
    (m.write a v).wf = true := by
  by_cases hv : v = Memory.unlisted
  · rw [Memory.write, if_pos hv]; exact Memory.wf_clear a hm
  · rw [Memory.write, if_neg hv]
    exact Memory.wf_place (Memory.wf_clear a hm) ha hv fun c hc => (Memory.mem_clear.mp hc).2

/-- The memory after power-up and reset is in the canonical form. -/
theorem Memory.wf_reset : State.reset.mem.wf = true := rfl

@[simp] theorem State.readMem_writeMem (s : State) (a b : Nat) (v : Word) :
    (s.writeMem a v).readMem b = if b = a then v else s.readMem b := Memory.read_write s.mem a b v

@[simp] theorem State.readReg_writeReg (s : State) (i j : Fin Config.numRegs) (v : Word) :
    (s.writeReg i v).readReg j = if j = i then v else s.readReg j := by
  simp only [State.readReg, State.writeReg, Fin.getElem_fin, Vector.getElem_set, Fin.ext_iff, eq_comm (a := i.val)]

end Sys2Proof.Machine
end

