-- ==== Sys2Proof/Laws/Operands.lean ====
section
/-! SUPPORT. Everything an operand check can answer. -/

namespace Sys2Proof.Machine

theorem regIndex_eq_some {r : Word} {i : Fin Config.numRegs} : regIndex r = some i ↔ r.toInt = i.val := by
  have hi : i.val < 4 := i.isLt
  unfold regIndex
  split
  · rename_i h
    rw [Option.some.injEq, Fin.ext_iff]
    simp only; omega
  · rename_i h
    simp only [reduceCtorEq, false_iff]; omega

theorem regIndex_eq_none {r : Word} : regIndex r = none ↔ ¬ (0 ≤ r.toInt ∧ r.toInt < 4) := by
  unfold regIndex
  split
  · rename_i h; exact ⟨nofun, fun h' => absurd h h'⟩
  · rename_i h; exact ⟨fun _ => h, fun _ => rfl⟩

theorem dataAddress_eq_some {a : Word} {k : Fin Config.memWords} : dataAddress a = some k ↔ a.toInt = k.val := by
  have hk : k.val < 1024 := k.isLt
  unfold dataAddress
  split
  · rename_i h
    rw [Option.some.injEq, Fin.ext_iff]
    simp only; omega
  · rename_i h
    simp only [reduceCtorEq, false_iff]; omega

theorem dataAddress_eq_none {a : Word} : dataAddress a = none ↔ ¬ (0 ≤ a.toInt ∧ a.toInt < 1024) := by
  unfold dataAddress
  split
  · rename_i h; exact ⟨nofun, fun h' => absurd h h'⟩
  · rename_i h; exact ⟨fun _ => h, fun _ => rfl⟩

theorem jumpTarget_eq_some {n u : PcWord} {t : Word} :
    jumpTarget n t = some u ↔ (0 ≤ t.toInt ∧ t.toInt < n.toNat) ∧ t = u := by
  unfold jumpTarget; split <;> simp_all

theorem jumpTarget_eq_none {n : PcWord} {t : Word} : jumpTarget n t = none ↔ ¬ (0 ≤ t.toInt ∧ t.toInt < n.toNat) := by
  unfold jumpTarget; split <;> simp_all

/-- A value that reads non-negative as signed reads the same as unsigned: `u32(t) = s32(t)` (R170). -/
theorem toInt_eq_toNat_of_nonneg {t : Word} (h : 0 ≤ t.toInt) : t.toInt = t.toNat := by
  have := t.isLt
  rw [BitVec.toInt_eq_toNat_cond] at h ⊢
  split at h <;> [simp_all; omega]

theorem validReg_iff {r : Word} : validReg r = true ↔ 0 ≤ r.toInt ∧ r.toInt < 4 := by
  simp [validReg]

theorem validAddr_iff {a : Word} : validAddr a = true ↔ 0 ≤ a.toInt ∧ a.toInt < 1024 := by
  simp [validAddr]

theorem validTgt_iff {n : Nat} {t : Word} : validTgt n t = true ↔ 0 ≤ t.toInt ∧ t.toInt < n := by
  simp [validTgt]

/-- The two ways of saying that a register operand is valid agree. -/
theorem regIndex_of_validReg {r : Word} (h : validReg r = true) : ∃ i, regIndex r = some i := by
  cases hr : regIndex r with
  | some i => exact ⟨i, rfl⟩
  | none => exact absurd (validReg_iff.mp h) (regIndex_eq_none.mp hr)

theorem dataAddress_of_validAddr {a : Word} (h : validAddr a = true) : ∃ k, dataAddress a = some k := by
  cases hr : dataAddress a with
  | some i => exact ⟨i, rfl⟩
  | none => exact absurd (validAddr_iff.mp h) (dataAddress_eq_none.mp hr)

theorem jumpTarget_of_validTgt {n : PcWord} {t : Word} (h : validTgt n.toNat t = true) : jumpTarget n t = some t :=
  jumpTarget_eq_some.mpr ⟨validTgt_iff.mp h, rfl⟩

end Sys2Proof.Machine
end

