-- ==== Sys2Proof/Laws/PerInstr.lean ====
section
/-! SUPPORT. Statements for every instruction, one lemma a constructor. -/

namespace Sys2Proof.Laws.EncodesItsRow

/-- The instruction's word is accepted by the row of the opcode map that bears its mnemonic, and by no other row
(spec/30_encoding.md R74). -/
def Statement (i : Instr) : Prop :=
  ∀ row ∈ opcodeTable, row.accepts (encode i) = true ↔ row.mnemonic = i.mnemonic

/-- The rows of R74 with mask and match as the fields of a word. -/
theorem opcodeTable_fields : opcodeTable =
    [ ⟨"NOOP",      packWord 0x00 0 0, packWord 0xFF 0xFFFFFFFF 0xFFFFFFFF⟩,
      ⟨"LOAD",      packWord 0x01 0 0, packWord 0xFF 0 0xFFFFFFFF⟩,
      ⟨"R2A_LOAD",  packWord 0x02 0 0, packWord 0xFF 0 0xFFFFFFFF⟩,
      ⟨"M2R_LOAD",  packWord 0x03 0 0, packWord 0xFF 0 0⟩,
      ⟨"M2A_LOAD",  packWord 0x04 0 0, packWord 0xFF 0 0xFFFFFFFF⟩,
      ⟨"A2R_STORE", packWord 0x05 0 0, packWord 0xFF 0 0xFFFFFFFF⟩,
      ⟨"A2M_STORE", packWord 0x06 0 0, packWord 0xFF 0 0xFFFFFFFF⟩,
      ⟨"R2M_STORE", packWord 0x07 0 0, packWord 0xFF 0 0⟩,
      ⟨"I_ADD",     packWord 0x08 0 0, packWord 0xFF 0 0xFFFFFFFF⟩,
      ⟨"JUMP",      packWord 0x09 0 0, packWord 0xFF 0 0xFFFFFFFF⟩,
      ⟨"JUMP_NEG",  packWord 0x0A 0 0, packWord 0xFF 0 0xFFFFFFFF⟩ ] := by decide

/-- A row whose mask keeps all of OP refuses a word of another opcode. -/
theorem packWord_ne_of_op {op op' : BitVec 8} {a a' b b' : Word} (h : op ≠ op') : packWord op a b ≠ packWord op' a' b' :=
  fun e => h (packWord_inj e).1

theorem noop : Statement .noop := by unfold Statement; decide

theorem load (imm : Word) : Statement (.load imm) := by
  simp [Statement, opcodeTable_fields, OpcodeRow.accepts, encode, packWord_and, Instr.mnemonic, packWord_ne_of_op]

theorem r2aLoad (reg : Word) : Statement (.r2aLoad reg) := by
  simp [Statement, opcodeTable_fields, OpcodeRow.accepts, encode, packWord_and, Instr.mnemonic, packWord_ne_of_op]

theorem m2rLoad (addr reg : Word) : Statement (.m2rLoad addr reg) := by
  simp [Statement, opcodeTable_fields, OpcodeRow.accepts, encode, packWord_and, Instr.mnemonic, packWord_ne_of_op]

theorem m2aLoad (addr : Word) : Statement (.m2aLoad addr) := by
  simp [Statement, opcodeTable_fields, OpcodeRow.accepts, encode, packWord_and, Instr.mnemonic, packWord_ne_of_op]

theorem a2rStore (reg : Word) : Statement (.a2rStore reg) := by
  simp [Statement, opcodeTable_fields, OpcodeRow.accepts, encode, packWord_and, Instr.mnemonic, packWord_ne_of_op]

theorem a2mStore (addr : Word) : Statement (.a2mStore addr) := by
  simp [Statement, opcodeTable_fields, OpcodeRow.accepts, encode, packWord_and, Instr.mnemonic, packWord_ne_of_op]

theorem r2mStore (reg addr : Word) : Statement (.r2mStore reg addr) := by
  simp [Statement, opcodeTable_fields, OpcodeRow.accepts, encode, packWord_and, Instr.mnemonic, packWord_ne_of_op]

theorem iAdd (imm : Word) : Statement (.iAdd imm) := by
  simp [Statement, opcodeTable_fields, OpcodeRow.accepts, encode, packWord_and, Instr.mnemonic, packWord_ne_of_op]

theorem jump (tgt : Word) : Statement (.jump tgt) := by
  simp [Statement, opcodeTable_fields, OpcodeRow.accepts, encode, packWord_and, Instr.mnemonic, packWord_ne_of_op]

theorem jumpNeg (tgt : Word) : Statement (.jumpNeg tgt) := by
  simp [Statement, opcodeTable_fields, OpcodeRow.accepts, encode, packWord_and, Instr.mnemonic, packWord_ne_of_op]

end Sys2Proof.Laws.EncodesItsRow
end

