-- ==== Sys2Proof/Laws/State.lean ====
section
/-! SUPPORT. One lemma per field per update of the state, so that no later proof unfolds a record update. -/

namespace Sys2Proof.Machine

/-! ### setAcc -/

@[simp] theorem State.setAcc_acc (s : State) (v : Word) : (s.setAcc v).acc = v := rfl
@[simp] theorem State.setAcc_regs (s : State) (v : Word) : (s.setAcc v).regs = s.regs := rfl
@[simp] theorem State.setAcc_mem (s : State) (v : Word) : (s.setAcc v).mem = s.mem := rfl
@[simp] theorem State.setAcc_pc (s : State) (v : Word) : (s.setAcc v).pc = s.pc := rfl
@[simp] theorem State.setAcc_run (s : State) (v : Word) : (s.setAcc v).run = s.run := rfl
@[simp] theorem State.setAcc_fault (s : State) (v : Word) : (s.setAcc v).fault = s.fault := rfl
@[simp] theorem State.setAcc_len (s : State) (v : Word) : (s.setAcc v).len = s.len := rfl
@[simp] theorem State.setAcc_imem (s : State) (v : Word) : (s.setAcc v).imem = s.imem := rfl
@[simp] theorem State.setAcc_retired (s : State) (v : Word) : (s.setAcc v).retired = s.retired := rfl

/-! ### writeReg -/

@[simp] theorem State.writeReg_acc (s : State) (i : Fin Config.numRegs) (v : Word) : (s.writeReg i v).acc = s.acc := rfl
@[simp] theorem State.writeReg_regs (s : State) (i : Fin Config.numRegs) (v : Word) : (s.writeReg i v).regs = s.regs.set i v := rfl
@[simp] theorem State.writeReg_mem (s : State) (i : Fin Config.numRegs) (v : Word) : (s.writeReg i v).mem = s.mem := rfl
@[simp] theorem State.writeReg_pc (s : State) (i : Fin Config.numRegs) (v : Word) : (s.writeReg i v).pc = s.pc := rfl
@[simp] theorem State.writeReg_run (s : State) (i : Fin Config.numRegs) (v : Word) : (s.writeReg i v).run = s.run := rfl
@[simp] theorem State.writeReg_fault (s : State) (i : Fin Config.numRegs) (v : Word) : (s.writeReg i v).fault = s.fault := rfl
@[simp] theorem State.writeReg_len (s : State) (i : Fin Config.numRegs) (v : Word) : (s.writeReg i v).len = s.len := rfl
@[simp] theorem State.writeReg_imem (s : State) (i : Fin Config.numRegs) (v : Word) : (s.writeReg i v).imem = s.imem := rfl
@[simp] theorem State.writeReg_retired (s : State) (i : Fin Config.numRegs) (v : Word) : (s.writeReg i v).retired = s.retired := rfl

/-! ### writeMem -/

@[simp] theorem State.writeMem_acc (s : State) (a : Nat) (v : Word) : (s.writeMem a v).acc = s.acc := rfl
@[simp] theorem State.writeMem_regs (s : State) (a : Nat) (v : Word) : (s.writeMem a v).regs = s.regs := rfl
@[simp] theorem State.writeMem_mem (s : State) (a : Nat) (v : Word) : (s.writeMem a v).mem = s.mem.write a v := rfl
@[simp] theorem State.writeMem_pc (s : State) (a : Nat) (v : Word) : (s.writeMem a v).pc = s.pc := rfl
@[simp] theorem State.writeMem_run (s : State) (a : Nat) (v : Word) : (s.writeMem a v).run = s.run := rfl
@[simp] theorem State.writeMem_fault (s : State) (a : Nat) (v : Word) : (s.writeMem a v).fault = s.fault := rfl
@[simp] theorem State.writeMem_len (s : State) (a : Nat) (v : Word) : (s.writeMem a v).len = s.len := rfl
@[simp] theorem State.writeMem_imem (s : State) (a : Nat) (v : Word) : (s.writeMem a v).imem = s.imem := rfl
@[simp] theorem State.writeMem_retired (s : State) (a : Nat) (v : Word) : (s.writeMem a v).retired = s.retired := rfl

/-! ### incPc -/

@[simp] theorem State.incPc_acc (s : State) : (s.incPc).acc = s.acc := rfl
@[simp] theorem State.incPc_regs (s : State) : (s.incPc).regs = s.regs := rfl
@[simp] theorem State.incPc_mem (s : State) : (s.incPc).mem = s.mem := rfl
@[simp] theorem State.incPc_pc (s : State) : (s.incPc).pc = s.pc + 1 := rfl
@[simp] theorem State.incPc_run (s : State) : (s.incPc).run = s.run := rfl
@[simp] theorem State.incPc_fault (s : State) : (s.incPc).fault = s.fault := rfl
@[simp] theorem State.incPc_len (s : State) : (s.incPc).len = s.len := rfl
@[simp] theorem State.incPc_imem (s : State) : (s.incPc).imem = s.imem := rfl
@[simp] theorem State.incPc_retired (s : State) : (s.incPc).retired = s.retired := rfl

/-! ### jumpTo -/

@[simp] theorem State.jumpTo_acc (s : State) (t : PcWord) : (s.jumpTo t).acc = s.acc := rfl
@[simp] theorem State.jumpTo_regs (s : State) (t : PcWord) : (s.jumpTo t).regs = s.regs := rfl
@[simp] theorem State.jumpTo_mem (s : State) (t : PcWord) : (s.jumpTo t).mem = s.mem := rfl
@[simp] theorem State.jumpTo_pc (s : State) (t : PcWord) : (s.jumpTo t).pc = t := rfl
@[simp] theorem State.jumpTo_run (s : State) (t : PcWord) : (s.jumpTo t).run = s.run := rfl
@[simp] theorem State.jumpTo_fault (s : State) (t : PcWord) : (s.jumpTo t).fault = s.fault := rfl
@[simp] theorem State.jumpTo_len (s : State) (t : PcWord) : (s.jumpTo t).len = s.len := rfl
@[simp] theorem State.jumpTo_imem (s : State) (t : PcWord) : (s.jumpTo t).imem = s.imem := rfl
@[simp] theorem State.jumpTo_retired (s : State) (t : PcWord) : (s.jumpTo t).retired = s.retired := rfl

/-! ### raise -/

@[simp] theorem State.raise_acc (s : State) (c : FaultCause) : (s.raise c).acc = s.acc := rfl
@[simp] theorem State.raise_regs (s : State) (c : FaultCause) : (s.raise c).regs = s.regs := rfl
@[simp] theorem State.raise_mem (s : State) (c : FaultCause) : (s.raise c).mem = s.mem := rfl
@[simp] theorem State.raise_pc (s : State) (c : FaultCause) : (s.raise c).pc = s.pc := rfl
@[simp] theorem State.raise_run (s : State) (c : FaultCause) : (s.raise c).run = .faulted := rfl
@[simp] theorem State.raise_fault (s : State) (c : FaultCause) : (s.raise c).fault = c.record s := rfl
@[simp] theorem State.raise_len (s : State) (c : FaultCause) : (s.raise c).len = s.len := rfl
@[simp] theorem State.raise_imem (s : State) (c : FaultCause) : (s.raise c).imem = s.imem := rfl
@[simp] theorem State.raise_retired (s : State) (c : FaultCause) : (s.raise c).retired = s.retired := rfl

/-! ### halt -/

@[simp] theorem State.halt_acc (s : State) : (s.halt).acc = s.acc := rfl
@[simp] theorem State.halt_regs (s : State) : (s.halt).regs = s.regs := rfl
@[simp] theorem State.halt_mem (s : State) : (s.halt).mem = s.mem := rfl
@[simp] theorem State.halt_pc (s : State) : (s.halt).pc = s.pc := rfl
@[simp] theorem State.halt_run (s : State) : (s.halt).run = .halted := rfl
@[simp] theorem State.halt_fault (s : State) : (s.halt).fault = s.fault := rfl
@[simp] theorem State.halt_len (s : State) : (s.halt).len = s.len := rfl
@[simp] theorem State.halt_imem (s : State) : (s.halt).imem = s.imem := rfl
@[simp] theorem State.halt_retired (s : State) : (s.halt).retired = s.retired := rfl

end Sys2Proof.Machine
end

