-- ==== Sys2Proof/Laws/Step.lean ====
section
/-! SUPPORT. Everything the fetch, an instruction and the retire port can do, said once. -/

namespace Sys2Proof.Machine

/-! ### The fetch -/

theorem State.fetch_notRunning {s : State} (h : s.run ≠ .running) : s.fetch = .notRunning := if_neg h

theorem State.fetch_atEnd {s : State} (h : s.run = .running) (e : s.pc.toNat = s.len.toNat) : s.fetch = .atEnd := by
  simp [State.fetch, h, e]

theorem State.fetch_pastEnd {s : State} (h : s.run = .running) (l : s.len.toNat < s.pc.toNat) : s.fetch = .pastEnd := by
  have e : s.pc.toNat ≠ s.len.toNat := by omega
  simp [State.fetch, h, e, l]

theorem State.fetch_illegal {s : State} {why : Illegal} (h : s.run = .running) (l : s.pc.toNat < s.len.toNat)
    (d : decode (s.imemWord s.pc.toNat) = .illegal why) : s.fetch = .illegal (s.imemWord s.pc.toNat) := by
  have e : s.pc.toNat ≠ s.len.toNat := by omega
  have g : ¬ s.len.toNat < s.pc.toNat := by omega
  simp only [State.fetch, h, e, g, d, if_true, if_false]

theorem State.fetch_instr {s : State} {i : Instr} (h : s.run = .running) (l : s.pc.toNat < s.len.toNat)
    (d : decode (s.imemWord s.pc.toNat) = .instr i) : s.fetch = .instr (s.imemWord s.pc.toNat) i := by
  have e : s.pc.toNat ≠ s.len.toNat := by omega
  have g : ¬ s.len.toNat < s.pc.toNat := by omega
  simp only [State.fetch, h, e, g, d, if_true, if_false]

/-- Everything the fetch can answer. -/
theorem State.fetch_cases (s : State) :
    (s.run ≠ .running ∧ s.fetch = .notRunning) ∨
    (s.run = .running ∧ s.pc.toNat = s.len.toNat ∧ s.fetch = .atEnd) ∨
    (s.run = .running ∧ s.len.toNat < s.pc.toNat ∧ s.fetch = .pastEnd) ∨
    (s.run = .running ∧ s.pc.toNat < s.len.toNat ∧ ∃ why, decode (s.imemWord s.pc.toNat) = .illegal why ∧
      s.fetch = .illegal (s.imemWord s.pc.toNat)) ∨
    (s.run = .running ∧ s.pc.toNat < s.len.toNat ∧ ∃ i, decode (s.imemWord s.pc.toNat) = .instr i ∧
      s.fetch = .instr (s.imemWord s.pc.toNat) i) := by
  by_cases h : s.run = .running
  · rcases Nat.lt_trichotomy s.pc.toNat s.len.toNat with l | e | l
    · cases d : decode (s.imemWord s.pc.toNat) with
      | illegal why => exact .inr (.inr (.inr (.inl ⟨h, l, why, rfl, State.fetch_illegal h l d⟩)))
      | instr i => exact .inr (.inr (.inr (.inr ⟨h, l, i, rfl, State.fetch_instr h l d⟩)))
    · exact .inr (.inl ⟨h, e, State.fetch_atEnd h e⟩)
    · exact .inr (.inr (.inl ⟨h, l, State.fetch_pastEnd h l⟩))
  · exact .inl ⟨h, State.fetch_notRunning h⟩

/-! ### The retire port -/

theorem State.emitRetire_running {before after : State} (h : after.run = .running) (w : InstrWord) :
    before.emitRetire w after = { after with retired := after.retired ++ [⟨before.pc, w, after.acc⟩] } := if_pos h

theorem State.emitRetire_stopped {before after : State} (h : after.run ≠ .running) (w : InstrWord) :
    before.emitRetire w after = after := if_neg h

@[simp] theorem State.emitRetire_acc (b : State) (w : InstrWord) (a : State) : (b.emitRetire w a).acc = a.acc := by
  unfold State.emitRetire; split <;> rfl
@[simp] theorem State.emitRetire_regs (b : State) (w : InstrWord) (a : State) : (b.emitRetire w a).regs = a.regs := by
  unfold State.emitRetire; split <;> rfl
@[simp] theorem State.emitRetire_mem (b : State) (w : InstrWord) (a : State) : (b.emitRetire w a).mem = a.mem := by
  unfold State.emitRetire; split <;> rfl
@[simp] theorem State.emitRetire_pc (b : State) (w : InstrWord) (a : State) : (b.emitRetire w a).pc = a.pc := by
  unfold State.emitRetire; split <;> rfl
@[simp] theorem State.emitRetire_run (b : State) (w : InstrWord) (a : State) : (b.emitRetire w a).run = a.run := by
  unfold State.emitRetire; split <;> rfl
@[simp] theorem State.emitRetire_fault (b : State) (w : InstrWord) (a : State) : (b.emitRetire w a).fault = a.fault := by
  unfold State.emitRetire; split <;> rfl
@[simp] theorem State.emitRetire_len (b : State) (w : InstrWord) (a : State) : (b.emitRetire w a).len = a.len := by
  unfold State.emitRetire; split <;> rfl
@[simp] theorem State.emitRetire_imem (b : State) (w : InstrWord) (a : State) : (b.emitRetire w a).imem = a.imem := by
  unfold State.emitRetire; split <;> rfl

@[simp] theorem State.retire_next (b : State) (w : InstrWord) (t : State) :
    b.retire w (.next t) = .next (b.emitRetire w t) := rfl

/-! ### The instructions -/

/-- What an instruction leaves alone when it completes, and where it may leave `pc`. -/
structure Completes (s t : State) : Prop where
  run : t.run = s.run
  fault : t.fault = s.fault
  len : t.len = s.len
  imem : t.imem = s.imem
  retired : t.retired = s.retired
  memWf : s.mem.wf = true → t.mem.wf = true
  pc : t.pc = s.pc + 1 ∨ t.pc.toNat < s.len.toNat

/-- Everything an instruction can do, one line a shape: it raises one of the three operand faults, and then some operand
is out of range, or it completes. -/
theorem exec_cases (i : Instr) (s : State) :
    (∃ c, exec i s = .next (s.raise c) ∧ i.wellFormed s.len.toNat = false ∧
      ((∃ r, c = .illegalRegister r) ∨ (∃ a, c = .illegalMemoryAccess a) ∨ (∃ x, c = .illegalJump x))) ∨
    (∃ t, exec i s = .next t ∧ i.wellFormed s.len.toNat = true ∧ Completes s t) := by
  have reg : ∀ {r : Word}, regIndex r = none → validReg r = false := fun h =>
    Bool.eq_false_iff.mpr fun v => regIndex_eq_none.mp h (validReg_iff.mp v)
  have addr : ∀ {a : Word}, dataAddress a = none → validAddr a = false := fun h =>
    Bool.eq_false_iff.mpr fun v => dataAddress_eq_none.mp h (validAddr_iff.mp v)
  have tgt : ∀ {n : PcWord} {x : Word}, jumpTarget n x = none → validTgt n.toNat x = false := fun h =>
    Bool.eq_false_iff.mpr fun v => jumpTarget_eq_none.mp h (validTgt_iff.mp v)
  have reg' : ∀ {r : Word} {k}, regIndex r = some k → validReg r = true := fun {r k} h => by
    have := regIndex_eq_some.mp h
    have : k.val < 4 := k.isLt
    exact validReg_iff.mpr (by omega)
  have addr' : ∀ {a : Word} {k}, dataAddress a = some k → validAddr a = true := fun {a k} h => by
    have := dataAddress_eq_some.mp h
    have : k.val < 1024 := k.isLt
    exact validAddr_iff.mpr (by omega)
  cases i with
  | noop => exact .inr ⟨_, rfl, rfl, ⟨rfl, rfl, rfl, rfl, rfl, id, .inl rfl⟩⟩
  | load imm => exact .inr ⟨_, rfl, rfl, ⟨rfl, rfl, rfl, rfl, rfl, id, .inl rfl⟩⟩
  | iAdd imm => exact .inr ⟨_, rfl, rfl, ⟨rfl, rfl, rfl, rfl, rfl, id, .inl rfl⟩⟩
  | r2aLoad r =>
    simp only [exec, execR2aLoad, Instr.wellFormed]
    cases h : regIndex r with
    | none => exact .inl ⟨_, rfl, reg h, .inl ⟨r, rfl⟩⟩
    | some k => exact .inr ⟨_, rfl, reg' h, ⟨rfl, rfl, rfl, rfl, rfl, id, .inl rfl⟩⟩
  | a2rStore r =>
    simp only [exec, execA2rStore, Instr.wellFormed]
    cases h : regIndex r with
    | none => exact .inl ⟨_, rfl, reg h, .inl ⟨r, rfl⟩⟩
    | some k => exact .inr ⟨_, rfl, reg' h, ⟨rfl, rfl, rfl, rfl, rfl, id, .inl rfl⟩⟩
  | m2aLoad a =>
    simp only [exec, execM2aLoad, Instr.wellFormed]
    cases h : dataAddress a with
    | none => exact .inl ⟨_, rfl, addr h, .inr (.inl ⟨a, rfl⟩)⟩
    | some k => exact .inr ⟨_, rfl, addr' h, ⟨rfl, rfl, rfl, rfl, rfl, id, .inl rfl⟩⟩
  | a2mStore a =>
    simp only [exec, execA2mStore, Instr.wellFormed]
    cases h : dataAddress a with
    | none => exact .inl ⟨_, rfl, addr h, .inr (.inl ⟨a, rfl⟩)⟩
    | some k =>
      exact .inr ⟨_, rfl, addr' h, ⟨rfl, rfl, rfl, rfl, rfl, fun w => Memory.wf_write _ w k.isLt, .inl rfl⟩⟩
  | m2rLoad a r =>
    simp only [exec, execM2rLoad, Instr.wellFormed, Bool.and_eq_true, Bool.and_eq_false_iff]
    cases h : dataAddress a with
    | none => exact .inl ⟨_, rfl, .inl (addr h), .inr (.inl ⟨a, rfl⟩)⟩
    | some k =>
      cases g : regIndex r with
      | none => exact .inl ⟨_, rfl, .inr (reg g), .inl ⟨r, rfl⟩⟩
      | some j => exact .inr ⟨_, rfl, ⟨addr' h, reg' g⟩, ⟨rfl, rfl, rfl, rfl, rfl, id, .inl rfl⟩⟩
  | r2mStore r a =>
    simp only [exec, execR2mStore, Instr.wellFormed, Bool.and_eq_true, Bool.and_eq_false_iff]
    cases h : dataAddress a with
    | none => exact .inl ⟨_, rfl, .inl (addr h), .inr (.inl ⟨a, rfl⟩)⟩
    | some k =>
      cases g : regIndex r with
      | none => exact .inl ⟨_, rfl, .inr (reg g), .inl ⟨r, rfl⟩⟩
      | some j =>
        exact .inr ⟨_, rfl, ⟨addr' h, reg' g⟩,
          ⟨rfl, rfl, rfl, rfl, rfl, fun w => Memory.wf_write _ w k.isLt, .inl rfl⟩⟩
  | jump x =>
    simp only [exec, execJump, Instr.wellFormed]
    cases h : jumpTarget s.len x with
    | none => exact .inl ⟨_, rfl, tgt h, .inr (.inr ⟨x, rfl⟩)⟩
    | some u =>
      obtain ⟨v, rfl⟩ := jumpTarget_eq_some.mp h
      have := toInt_eq_toNat_of_nonneg v.1
      exact .inr ⟨_, rfl, validTgt_iff.mpr v, ⟨rfl, rfl, rfl, rfl, rfl, id, .inr (by simp only [State.jumpTo_pc]; omega)⟩⟩
  | jumpNeg x =>
    simp only [exec, execJumpNeg, Instr.wellFormed]
    cases h : jumpTarget s.len x with
    | none => exact .inl ⟨_, rfl, tgt h, .inr (.inr ⟨x, rfl⟩)⟩
    | some u =>
      obtain ⟨v, rfl⟩ := jumpTarget_eq_some.mp h
      have := toInt_eq_toNat_of_nonneg v.1
      cases s.accNegative with
      | true =>
        exact .inr ⟨_, rfl, validTgt_iff.mpr v,
          ⟨rfl, rfl, rfl, rfl, rfl, id, .inr (by simp only [State.jumpTo_pc]; omega)⟩⟩
      | false => exact .inr ⟨_, rfl, validTgt_iff.mpr v, ⟨rfl, rfl, rfl, rfl, rfl, id, .inl rfl⟩⟩

/-! ### The step -/

/-- Every instruction answers a next state. -/
theorem exec_next (i : Instr) (s : State) : ∃ t, exec i s = .next t := by
  rcases exec_cases i s with ⟨_, e, _⟩ | ⟨_, e, _⟩ <;> exact ⟨_, e⟩

/-- Everything a step can do. -/
theorem step_cases {s t : State} (hs : step s = .next t) :
    (s.run ≠ .running ∧ t = s) ∨
    (s.run = .running ∧ s.pc.toNat = s.len.toNat ∧ t = s.halt) ∨
    (s.run = .running ∧ s.len.toNat < s.pc.toNat ∧ t = s.raise .outOfBoundsFetch) ∨
    (s.run = .running ∧ s.pc.toNat < s.len.toNat ∧ (∃ why, decode (s.imemWord s.pc.toNat) = .illegal why) ∧
      t = s.raise (.illegalInstruction (s.imemWord s.pc.toNat))) ∨
    (s.run = .running ∧ s.pc.toNat < s.len.toNat ∧ ∃ i, decode (s.imemWord s.pc.toNat) = .instr i ∧
      ∃ u, exec i s = .next u ∧ t = s.emitRetire (s.imemWord s.pc.toNat) u) := by
  rcases s.fetch_cases with ⟨h, f⟩ | ⟨h, e, f⟩ | ⟨h, e, f⟩ | ⟨h, l, why, d, f⟩ | ⟨h, l, i, d, f⟩ <;>
    simp only [step, f] at hs
  · cases hs; exact .inl ⟨h, rfl⟩
  · cases hs; exact .inr (.inl ⟨h, e, rfl⟩)
  · cases hs; exact .inr (.inr (.inl ⟨h, e, rfl⟩))
  · cases hs; exact .inr (.inr (.inr (.inl ⟨h, l, ⟨why, d⟩, rfl⟩)))
  · obtain ⟨u, e⟩ := exec_next i s
    rw [e] at hs; cases hs
    exact .inr (.inr (.inr (.inr ⟨h, l, i, d, u, e, rfl⟩)))

/-! ### A word placed for the next fetch -/

theorem storeWord_get (ws : List InstrWord) (base i : Nat) (w : InstrWord) : (storeWord ws base i w)[i]? = some w := by
  induction i generalizing ws base with
  | zero => cases ws <;> rfl
  | succ i ih => cases ws <;> exact ih _ _

/-- The next step of the state fetches the word placed, unless `pc` is the greatest value of `PC_W` bits, which no program
reaches (spec/10_state.md R27). -/
theorem State.fetch_withFetchWord (s : State) (nbits w : Nat) (h : s.pc.toNat + 1 < 2 ^ 32) :
    (s.withFetchWord nbits w).fetch =
      match decode (tableInstrWord nbits w) with
      | .illegal _ => .illegal (tableInstrWord nbits w)
      | .instr i => .instr (tableInstrWord nbits w) i := by
  have hw : (s.withFetchWord nbits w).imemWord (s.withFetchWord nbits w).pc.toNat = tableInstrWord nbits w := by
    simp [State.imemWord, State.withFetchWord, State.withProgramWord, storeWord_get]
  have hl : (s.withFetchWord nbits w).pc.toNat < (s.withFetchWord nbits w).len.toNat := by
    simp only [State.withFetchWord, State.withProgramWord]
    split
    · assumption
    · rw [PcWord.toNat_add_one h]; omega
  cases d : decode (tableInstrWord nbits w) with
  | illegal why => rw [State.fetch_illegal rfl hl (by rw [hw]; exact d), hw]
  | instr i => rw [State.fetch_instr rfl hl (by rw [hw]; exact d), hw]

end Sys2Proof.Machine
end

