-- ==== Sys2Proof/Tests/Slice0.lean ====
section
/-! SUPPORT. The model's own tests. Expected results are those of spec/95_test_vectors.md (V-…, S…) or of the rule
named; a theorem test_witness_… shows a concrete case that meets the hypotheses of the statement it is named after. -/

open Sys2Proof Sys2Proof.Machine

namespace Sys2Proof.Tests

/-- A RUNNING core with a program, `pc` at its first word. -/
def prog (ws : List InstrWord) : State :=
  { State.reset with run := .running, imem := ws, len := BitVec.ofNat Config.pcW ws.length }

/-- The state a result holds (the reset state for a stop, which no test expects). -/
def out (r : Result) : State :=
  match r with
  | .next t => t
  | .fault _ => State.reset
  | .refused _ => State.reset

/-- One step of a program's first word. -/
def step1 (s : State) : State := out (step s)

/-- The parameters give the types the widths that R7 states, and the instruction word holds OP and two operands. -/
theorem test_widths : Word = BitVec 32 ∧ PcWord = BitVec 32 ∧ InstrWord = BitVec 72 ∧ Config.instrW = 8 + 2 * Config.wordW :=
  ⟨rfl, rfl, rfl, rfl⟩

/-! ### Well-formedness: an ill-formed term for each check, and what the checks let pass -/

theorem test_wf_refuses_register_4 : (Instr.r2aLoad 4).wellFormed 1 = false := by decide
theorem test_wf_refuses_negative_register : (Instr.a2rStore (-1)).wellFormed 1 = false := by decide
theorem test_wf_refuses_address_1024 : (Instr.m2aLoad 1024).wellFormed 1 = false := by decide
theorem test_wf_refuses_negative_address : (Instr.a2mStore (-1)).wellFormed 1 = false := by decide
theorem test_wf_refuses_m2r_register : (Instr.m2rLoad 0 4).wellFormed 1 = false := by decide
theorem test_wf_refuses_r2m_address : (Instr.r2mStore 0 1024).wellFormed 1 = false := by decide
theorem test_wf_refuses_target_n : (Instr.jump 3).wellFormed 3 = false := by decide
theorem test_wf_refuses_negative_target : (Instr.jumpNeg (-1)).wellFormed 3 = false := by decide
theorem test_wf_passes_last_of_each : (Instr.m2rLoad 1023 3).wellFormed 1 = true ∧ (Instr.jump 2).wellFormed 3 = true := by decide
theorem test_illegal_opcode_0B : InstrWord.legal 0x0B_00000000_00000000#72 = false := by decide
theorem test_illegal_noop_with_A : InstrWord.legal 0x00_00000001_00000000#72 = false := by decide
theorem test_illegal_load_with_B : InstrWord.legal 0x01_00000005_00000001#72 = false := by decide
theorem test_legal_m2r_uses_both_fields : InstrWord.legal 0x03_FFFFFFFF_FFFFFFFF#72 = true := by decide

/-! ### Decode: one word of every constructor, as spec/95_test_vectors.md section 3 writes it -/

theorem test_decode_noop : decode 0x00_00000000_00000000#72 = .instr .noop := by decide
theorem test_decode_load : decode 0x01_7FFFFFFF_00000000#72 = .instr (.load 2147483647) := by decide
theorem test_decode_r2aLoad : decode 0x02_00000004_00000000#72 = .instr (.r2aLoad 4) := by decide
theorem test_decode_m2rLoad : decode 0x03_00000064_00000003#72 = .instr (.m2rLoad 100 3) := by decide
theorem test_decode_m2aLoad : decode 0x04_000000C8_00000000#72 = .instr (.m2aLoad 200) := by decide
theorem test_decode_a2rStore : decode 0x05_00000001_00000000#72 = .instr (.a2rStore 1) := by decide
theorem test_decode_a2mStore : decode 0x06_00000064_00000000#72 = .instr (.a2mStore 100) := by decide
theorem test_decode_r2mStore : decode 0x07_00000003_000000C8#72 = .instr (.r2mStore 3 200) := by decide
theorem test_decode_iAdd : decode 0x08_FFFFFFF6_00000000#72 = .instr (.iAdd (-10)) := by decide
theorem test_decode_jump : decode 0x09_0000000A_00000000#72 = .instr (.jump 10) := by decide
theorem test_decode_jumpNeg : decode 0x0A_00000001_00000000#72 = .instr (.jumpNeg 1) := by decide
/-- V-D2, V-D4, V-D5 and V-D7: each is illegal; the kind is the model's choice (log 19). -/
theorem test_decode_illegal : decode 0x0B_00000000_00000000#72 = .illegal .opcode ∧
    decode 0x00_00000001_00000000#72 = .illegal .fieldA ∧ decode 0x01_00000005_00000001#72 = .illegal .fieldB ∧
    decode 0x0A_00000000_00000001#72 = .illegal .fieldB := by decide
theorem test_decodeTableWord_of_row : decodeTableWord 72 0x07_00000001_000000C8 = some (.r2mStore 1 200) := by decide

/-! ### One step of each instruction -/

/-- V-M1. -/
theorem test_noop : (step1 { prog [0, 0, 0] with pc := 2, acc := 9 }).pc = 3 ∧
    (step1 { prog [0, 0, 0] with pc := 2, acc := 9 }).acc = 9 := by decide
/-- V-M2. -/
theorem test_load_int_min : (step1 { prog [0x01_80000000_00000000#72] with acc := 5 }).acc = 0x80000000 := by decide
/-- S1, its retire event. -/
theorem test_load_retires : (step1 (prog [0x01_00000005_00000000#72])).retired = [⟨0, 0x01_00000005_00000000#72, 5⟩] := by
  decide
/-- V-M5. -/
theorem test_r2aLoad : (step1 { prog [0x02_00000003_00000000#72] with regs := #v[1, 2, 3, -9] }).acc = -9 := by decide
/-- V-M7. -/
theorem test_r2aLoad_negative_faults : (step1 (prog [0x02_FFFFFFFF_00000000#72])).fault = ⟨2, 0, -1, 0, 0⟩ := by decide
/-- S3. -/
theorem test_m2rLoad : (step1 { prog [0x03_00000001_00000002#72] with mem := [(1, 10)] }).regs = #v[0, 0, 10, 0] := by decide
/-- V-M11: the address is reported. -/
theorem test_m2rLoad_both_bad : (step1 (prog [0x03_FFFFFFFF_00000007#72])).fault = ⟨3, 0, -1, 0, 0⟩ := by decide
/-- V-M12. -/
theorem test_m2aLoad : (step1 { prog [0x04_00000000_00000000#72] with mem := [(0, -5)] }).acc = -5 := by decide
/-- V-M13. -/
theorem test_m2aLoad_int_min_faults : (step1 (prog [0x04_80000000_00000000#72])).fault = ⟨3, 0, 0x80000000, 0, 0⟩ := by decide
/-- V-M14. -/
theorem test_a2rStore : (step1 { prog [0x05_00000000_00000000#72] with acc := 3, regs := #v[9, 9, 9, 9] }).regs =
    #v[3, 9, 9, 9] := by decide
/-- V-M15. -/
theorem test_a2rStore_int_max_faults : (step1 (prog [0x05_7FFFFFFF_00000000#72])).run = .faulted := by decide
/-- V-M16, and that storing 0 over it lists nothing. -/
theorem test_a2mStore : (step1 { prog [0x06_000003FF_00000000#72] with acc := -1 }).mem = [(1023, -1)] ∧
    (step1 { prog [0x06_000003FF_00000000#72] with mem := [(7, 1), (1023, 5)] }).mem = [(7, 1)] := by decide
/-- V-M17. -/
theorem test_a2mStore_1024_faults : (step1 { prog [0x06_00000400_00000000#72] with acc := -1 }).mem = [] ∧
    (step1 { prog [0x06_00000400_00000000#72] with acc := -1 }).fault = ⟨3, 0, 1024, 0, 0⟩ := by decide
/-- V-M18, into the middle of a listed memory. -/
theorem test_r2mStore : (step1 { prog [0x07_00000001_00000005#72] with regs := #v[0, 6, 0, 0], mem := [(1, 1), (9, 9)] }).mem =
    [(1, 1), (5, 6), (9, 9)] := by decide
/-- V-M20. -/
theorem test_r2mStore_both_bad : (step1 (prog [0x07_00000004_00001388#72])).fault = ⟨3, 0, 5000, 0, 0⟩ := by decide
/-- V-A3. -/
theorem test_iAdd_wraps_up : (step1 { prog [0x08_00000001_00000000#72] with acc := 0x7FFFFFFF }).acc = 0x80000000 := by decide
/-- V-A4. -/
theorem test_iAdd_wraps_down : (step1 { prog [0x08_FFFFFFFF_00000000#72] with acc := 0x80000000 }).acc = 0x7FFFFFFF := by decide
/-- V-C1. -/
theorem test_jump : (step1 (prog [0x09_00000002_00000000#72, 0, 0])).pc = 2 := by decide
/-- V-C3. -/
theorem test_jump_to_n_faults : (step1 (prog [0x09_00000003_00000000#72, 0, 0])).fault = ⟨4, 0, 3, 3, 0⟩ := by decide
/-- V-C7 and V-C8. -/
theorem test_jumpNeg : (step1 { prog [0x0A_00000002_00000000#72, 0, 0] with acc := 0x80000000 }).pc = 2 ∧
    (step1 (prog [0x0A_00000002_00000000#72, 0, 0])).pc = 1 := by decide
/-- V-C10. -/
theorem test_jumpNeg_checks_its_target_untaken :
    (step1 { prog [0x0A_00000007_00000000#72, 0, 0] with acc := 5 }).fault = ⟨4, 0, 7, 3, 0⟩ := by decide
/-- V-H1. -/
theorem test_halt : step1 { prog [] with acc := 4 } = { prog [] with acc := 4, run := .halted } := by decide
/-- V-H3. -/
theorem test_fetch_past_end : (step1 { prog [0, 0, 0, 0] with pc := 5 }).fault = ⟨1, 5, 5, 0, 0⟩ := by decide
/-- V-D3. -/
theorem test_illegal_word_faults :
    (step1 (prog [0xFF_FFFFFFFF_FFFFFFFF#72])).fault = ⟨5, 0, 0, 0, 0xFF_FFFFFFFF_FFFFFFFF#72⟩ := by decide

/-! ### The host's side -/

/-- The word placed for the fetch runs as the first instruction after reset. -/
theorem test_withFetchWord : (step1 (State.reset.withFetchWord 72 0x01_00000005_00000000)).acc = 5 := by decide
/-- V-H5. -/
theorem test_start_refused_when_halted : hostOp .start { prog [] with run := .halted } = ({ prog [] with run := .halted }, .refused) := by
  decide
/-- V-H6. -/
theorem test_write_reg_4_refused : hostOp (.writeReg 4 1) State.reset = (State.reset, .refused) := by decide
/-- V-H7. -/
theorem test_reset_keeps_the_program : (hostOp .reset { prog [0, 0] with run := .faulted, acc := 3 }).1 =
    { prog [0, 0] with run := .idle } := by decide
/-- The four codes of R30. -/
theorem test_run_codes : RunState.idle.code = 0 ∧ RunState.running.code = 1 ∧ RunState.halted.code = 2 ∧
    RunState.faulted.code = 3 := by decide
/-- R85: a register token may carry a sign. -/
theorem test_parse_negative_register : Asm.parseLine "R2A_LOAD R-1".toList = .instr (.r2aLoad (-1)) := by decide
/-- R84 and R86: a number where a register must stand, a value over INT_MAX, a lower-case mnemonic, `R` alone. That each
is rejected is the spec's; the kind of error is the model's choice (log 18). -/
theorem test_parse_rejections : Asm.parseLine "R2A_LOAD 1".toList = .error .badOperands ∧
    Asm.parseLine "LOAD 2147483648".toList = .error .badOperands ∧
    Asm.parseLine "noop".toList = .error .unknownMnemonic ∧ Asm.parseLine "A2R_STORE R".toList = .error .badOperands := by
  decide

/-! ### Witnesses: the hypotheses of the statements can be met -/

theorem test_witness_DecodeFollowsTheCaseList : 0x0B ≤ (0x0B#8).toNat := by decide
theorem test_witness_DecodeAndEncodeAreInverse : decode 0x01_00000005_00000000#72 = .instr (.load 5) := by decide
theorem test_witness_MaskAndMatch : ∃ r ∈ opcodeTable, r.accepts 0x01_00000005_00000000#72 = true := by decide
theorem test_witness_IllegalWords : ∃ why, (prog [0x0B_00000000_00000000#72]).run = .running ∧
    (prog [0x0B_00000000_00000000#72]).pc.toNat < (prog [0x0B_00000000_00000000#72]).len.toNat ∧
    decode ((prog [0x0B_00000000_00000000#72]).imemWord 0) = .illegal why := ⟨.opcode, by decide⟩
theorem test_witness_LegalWord : ∀ why, decode 0#72 ≠ .illegal why := by
  intro why; rw [show decode 0#72 = .instr .noop by decide]; simp
theorem test_witness_StepRunsTheDecodedInstruction : (prog [0]).run = .running ∧
    (prog [0]).pc.toNat < (prog [0]).len.toNat ∧ decode ((prog [0]).imemWord (prog [0]).pc.toNat) = .instr .noop := by decide
theorem test_witness_StepAtTheEnd : (prog []).run = .running ∧ (prog []).pc.toNat = (prog []).len.toNat := by decide
theorem test_witness_StepAtTheEnd_empty : State.reset.run = .idle ∧ State.reset.pc = 0 ∧ State.reset.len = 0 := by decide
theorem test_witness_FetchPast : ({ prog [0] with pc := 2 } : State).run = .running ∧
    ({ prog [0] with pc := 2 } : State).len.toNat < ({ prog [0] with pc := 2 } : State).pc.toNat := by decide
theorem test_witness_FetchPast_cause : ∃ t, step { prog [0] with pc := 2 } = .next t ∧ t.run = .faulted ∧ t.fault.cause = 1 :=
  ⟨_, rfl, rfl, rfl⟩
theorem test_witness_FetchPast_reachable : ∃ s t, Reachable s ∧ s.run = .running ∧ step s = .next t :=
  ⟨_, _, .hostAct .start .powerUp, rfl, rfl⟩
/-- Every clause of FirstFailingCheckIsTheOneReported: a bad address, a bad register under a good address, a bad target,
and operands that are all good at the ends of their ranges. -/
theorem test_witness_FirstFailingCheck :
    decode ((prog [0x04_00000400_00000000#72]).imemWord 0) = .instr (.m2aLoad 1024) ∧
    decode ((prog [0x03_000003FF_00000004#72]).imemWord 0) = .instr (.m2rLoad 1023 4) ∧
    decode ((prog [0x09_00000001_00000000#72]).imemWord 0) = .instr (.jump 1) ∧ (prog [0x09_00000001_00000000#72]).len = 1 ∧
    decode ((prog [0x07_00000003_000003FF#72]).imemWord 0) = .instr (.r2mStore 3 1023) := by decide
theorem test_witness_FirstFailingCheck_operands :
    (Instr.m2aLoad 1024).addrOperand = some 1024 ∧ ¬ ((1024 : Word).toInt < 1024) ∧
    (Instr.m2rLoad 1023 4).addrOperand = some 1023 ∧ (1023 : Word).toInt < 1024 ∧
    (Instr.m2rLoad 1023 4).regOperand = some 4 ∧ ¬ ((4 : Word).toInt < 4) ∧
    (Instr.jump 1).tgtOperand = some 1 ∧ ¬ ((1 : Word).toInt < 1) ∧
    (Instr.r2mStore 3 1023).regOperand = some 3 ∧ (3 : Word).toInt < 4 := by decide
theorem test_witness_FaultingStep : ∃ t, (prog [0x02_00000004_00000000#72]).run = .running ∧
    step (prog [0x02_00000004_00000000#72]) = .next t ∧ t.run = .faulted := ⟨_, rfl, rfl, rfl⟩
theorem test_witness_SuccessfulStep_plain : ∃ t, step (prog [0]) = .next t ∧ t.run = .running ∧
    (∀ x, Instr.noop ≠ .jump x) ∧ ∀ x, Instr.noop ≠ .jumpNeg x := ⟨_, rfl, rfl, by simp, by simp⟩
theorem test_witness_SuccessfulStep_jump : ∃ t, step (prog [0x09_00000000_00000000#72]) = .next t ∧ t.run = .running ∧
    decode ((prog [0x09_00000000_00000000#72]).imemWord 0) = .instr (.jump 0) := ⟨_, rfl, rfl, by decide⟩
theorem test_witness_SuccessfulStep_jumpNeg : ∃ t u,
    step { prog [0x0A_00000000_00000000#72] with acc := -1 } = .next t ∧ t.run = .running ∧ ((-1 : Word).toInt < 0) ∧
    step (prog [0x0A_00000000_00000000#72]) = .next u ∧ u.run = .running ∧ ¬ ((0 : Word).toInt < 0) :=
  ⟨_, _, rfl, rfl, by decide, rfl, rfl, by decide⟩
theorem test_witness_SuccessfulStep_stopped : ∃ t, step (prog []) = .next t ∧ t.run ≠ .running := ⟨_, rfl, by decide⟩
theorem test_witness_NoStepChangesTheProgram : ∃ t, (prog [0]).run = .running ∧ step (prog [0]) = .next t := ⟨_, rfl, rfl⟩
theorem test_witness_StepDependsOnNothingElse : ∃ s₁ s₂ : State, s₁ ≠ s₂ ∧ s₁.run = .running ∧ s₂.run = .running ∧
    s₁.acc = s₂.acc ∧ s₁.regs = s₂.regs ∧ (∀ a, s₁.readMem a = s₂.readMem a) ∧ s₁.pc = s₂.pc ∧ s₁.len = s₂.len ∧
    ∀ k, k < s₁.len.toNat → s₁.imemWord k = s₂.imemWord k :=
  ⟨prog [0], { prog [0] with fault := ⟨2, 0, 0, 0, 0⟩, retired := [⟨0, 0, 0⟩] }, by decide, rfl, rfl, rfl, rfl,
    fun _ => rfl, rfl, rfl, fun _ _ => rfl⟩
theorem test_witness_NoopsInARow : (prog [0, 0]).run = .running ∧ (prog [0, 0]).pc.toNat + 2 ≤ (prog [0, 0]).len.toNat ∧
    ∀ j, j < 2 → (prog [0, 0]).imemWord ((prog [0, 0]).pc.toNat + j) = 0x00_00000000_00000000#72 := by decide
/-- Register operands at both ends of both clauses of R2aLoadCopiesTheNamedRegister, A2rStoreCopiesAccToTheNamedRegister,
M2rLoadCopiesAMemoryWordToARegister and R2mStoreWritesARegisterToTheNamedWord. -/
theorem test_witness_register_operands : (0 ≤ (0 : Word).toInt ∧ (0 : Word).toInt < 4) ∧ (0 ≤ (3 : Word).toInt ∧ (3 : Word).toInt < 4) ∧
    ¬ (0 ≤ (4 : Word).toInt ∧ (4 : Word).toInt < 4) ∧ ¬ (0 ≤ (-1 : Word).toInt ∧ (-1 : Word).toInt < 4) := by decide
/-- Address operands at both ends of both clauses of M2aLoadCopiesAMemoryWordToAcc, A2mStoreWritesAccToTheNamedWord,
M2rLoadCopiesAMemoryWordToARegister and R2mStoreWritesARegisterToTheNamedWord. -/
theorem test_witness_address_operands : (0 ≤ (0 : Word).toInt ∧ (0 : Word).toInt < 1024) ∧
    (0 ≤ (1023 : Word).toInt ∧ (1023 : Word).toInt < 1024) ∧ ¬ (0 ≤ (1024 : Word).toInt ∧ (1024 : Word).toInt < 1024) ∧
    ¬ (0 ≤ (-1 : Word).toInt ∧ (-1 : Word).toInt < 1024) := by decide
/-- Target operands at both ends of both clauses of JumpGoesToItsTarget, JumpNegGoesToItsTargetIfAccIsNegative and
JumpNegConditionIsTheSignBit, in a program of three words, and both signs of the accumulator. -/
theorem test_witness_target_operands : (0 ≤ (0 : Word).toInt ∧ (0 : Word).toInt < (prog [0, 0, 0]).len.toNat) ∧
    (0 ≤ (2 : Word).toInt ∧ (2 : Word).toInt < (prog [0, 0, 0]).len.toNat) ∧
    ¬ (0 ≤ (3 : Word).toInt ∧ (3 : Word).toInt < (prog [0, 0, 0]).len.toNat) ∧
    ¬ (0 ≤ (-1 : Word).toInt ∧ (-1 : Word).toInt < (prog [0, 0, 0]).len.toNat) ∧
    ({ prog [0, 0, 0] with acc := -1 } : State).acc.toInt < 0 ∧ ¬ ((prog [0, 0, 0]).acc.toInt < 0) := by decide
theorem test_witness_AccumulatorReadersAndWriters : ∃ t, Instr.noop.writesAcc = false ∧ Instr.noop.readsAcc = false ∧
    exec .noop (prog [0]) = .next t := ⟨_, rfl, rfl, rfl⟩
theorem test_witness_RegisterFile_none : ∃ t, Instr.noop.regOperand = none ∧ Instr.noop.writtenReg = none ∧
    exec .noop (prog [0]) = .next t := ⟨_, rfl, rfl, rfl⟩
theorem test_witness_RegisterFile_written : ∃ t u, (Instr.a2rStore 3).writtenReg = some 3 ∧
    exec (.a2rStore 3) (prog [0]) = .next t ∧ regIndex 3 = some 3 ∧
    (Instr.a2rStore 4).writtenReg = some 4 ∧ exec (.a2rStore 4) (prog [0]) = .next u ∧ regIndex 4 = none :=
  ⟨_, _, rfl, rfl, by decide, rfl, rfl, by decide⟩
theorem test_witness_DataMemory_none : ∃ t, Instr.noop.addrOperand = none ∧ Instr.noop.storeAddr = none ∧
    exec .noop (prog [0]) = .next t := ⟨_, rfl, rfl, rfl⟩
theorem test_witness_DataMemory_stored : ∃ t u, (Instr.a2mStore 1023).storeAddr = some 1023 ∧
    exec (.a2mStore 1023) (prog [0]) = .next t ∧ dataAddress 1023 = some 1023 ∧
    (Instr.a2mStore 1024).storeAddr = some 1024 ∧ exec (.a2mStore 1024) (prog [0]) = .next u ∧ dataAddress 1024 = none :=
  ⟨_, _, rfl, rfl, by decide, rfl, rfl, by decide⟩
/-- One step of a NOOP: no executed store names address 5. -/
theorem test_witness_MemoryWordKeeps : ∃ t, Host.Core.run Sys2Proof.core 1 (prog [0]) = .next t ∧
    ∀ (j : Nat) (u : State) (i : Instr) (x : Word), j < 1 → Host.Core.run Sys2Proof.core j (prog [0]) = .next u →
      u.run = .running → u.pc.toNat < u.len.toNat → decode (u.imemWord u.pc.toNat) = .instr i → i.storeAddr = some x →
      x.toInt ≠ ((5 : Nat) : Int) := by
  refine ⟨_, rfl, ?_⟩
  rintro (_ | j) u i x hj hu _ _ hd hx
  · cases hu
    rw [show decode ((prog [0]).imemWord (prog [0]).pc.toNat) = .instr .noop by decide] at hd
    cases hd; cases hx
  · omega
theorem test_witness_CanonicalMemories : Memory.wf [(0, 1), (1023, -1)] = true := by decide
theorem test_witness_RunState : ∃ t u, step State.reset = .next t ∧ State.reset.run ≠ .running ∧
    step (prog []) = .next u ∧ (prog []).run = .running := ⟨_, _, rfl, by decide, rfl, rfl⟩
theorem test_witness_HaltedAndFaulted : ({ prog [] with run := .halted } : State).run = .halted ∧
    ({ prog [] with run := .faulted } : State).run = .faulted ∧ HostOp.start ≠ .reset := by decide
theorem test_witness_RunEndsInOneStepOnly : ∃ t, (prog []).run = .running ∧
    Host.Core.run Sys2Proof.core 1 (prog []) = .next t ∧ t.run ≠ .running := ⟨_, rfl, rfl, by decide⟩
theorem test_witness_Outcome : ({ prog [] with run := .halted } : State).run = .halted ∧
    ({ prog [] with run := .faulted } : State).run = .faulted := by decide
theorem test_witness_JumpToItself : (prog [0x09_00000000_00000000#72]).run = .running ∧
    (prog [0x09_00000000_00000000#72]).pc.toNat < (prog [0x09_00000000_00000000#72]).len.toNat ∧
    (prog [0x09_00000000_00000000#72]).pc.toNat < 2 ^ 31 ∧
    decode ((prog [0x09_00000000_00000000#72]).imemWord (prog [0x09_00000000_00000000#72]).pc.toNat) =
      .instr (.jump (prog [0x09_00000000_00000000#72]).pc) := by decide
/-- A loop of two words, a NOOP and a jump back, that passes every check, and steps. -/
theorem test_witness_CheckedProgram : ∃ t, (prog [0, 0x09_00000000_00000000#72]).Checked ∧
    step (prog [0, 0x09_00000000_00000000#72]) = .next t := by
  refine ⟨_, ⟨by decide, by decide, ?_⟩, rfl⟩
  rintro (_ | _ | k) hk
  · exact ⟨.noop, by decide, by decide⟩
  · exact ⟨.jump 0, by decide, by decide⟩
  · have : (prog [0, 0x09_00000000_00000000#72]).len.toNat = 2 := by decide
    omega
/-- A started core with the empty program has the invariant, and steps. -/
theorem test_witness_Invariant : ∃ t, Inv (prog []) ∧ step (prog []) = .next t :=
  ⟨_, ⟨rfl, Nat.zero_le _, le_rfl, le_rfl, by decide, by decide, fun _ => rfl, by decide⟩, rfl⟩
theorem test_witness_Reachable : Reachable (hostOp .start State.reset).1 := .hostAct .start .powerUp
theorem test_witness_ProgramLoad : State.reset.run = .idle ∧ ([0] : List InstrWord).length ≤ Config.imemCapacity :=
  ⟨rfl, one_le_imemCapacity⟩
theorem test_witness_ProgramLoad_refused : (prog []).run ≠ .idle ∧
    Config.imemCapacity < (List.replicate 2147483649 (0 : InstrWord)).length := by
  refine ⟨by decide, ?_⟩
  rw [List.length_replicate]
  exact Nat.lt_succ_of_le imemCapacity_le
theorem test_witness_HostPreloads : State.reset.run = .idle ∧ (prog []).run ≠ .idle ∧
    ¬ (0 ≤ (4 : Int) ∧ (4 : Int) < 4) ∧ ¬ (0 ≤ (-1 : Int) ∧ (-1 : Int) < 1024) ∧ ¬ (0 ≤ (1024 : Int) ∧ (1024 : Int) < 1024) := by
  decide
theorem test_witness_HostReads : ({ prog [0] with run := .halted } : State).run ≠ .running ∧
    0 < ({ prog [0] with run := .halted } : State).len.toNat ∧ (prog [0]).run = .running ∧
    ¬ (0 ≤ (1 : Int) ∧ (1 : Int) < (prog [0]).len.toNat) := by decide
theorem test_witness_RefusedHostOperation : (hostOp .start (prog [])).2 = .refused ∧ (prog []).run = .running ∧
    HostOp.start ≠ .reset ∧ HostOp.start ≠ .readRun := by decide
theorem test_witness_BootSequence : ([0] : List InstrWord).length ≤ Config.imemCapacity ∧ State.reset.run = .idle ∧
    ([0] : List InstrWord)[0]? = some 0 := ⟨one_le_imemCapacity, rfl, rfl⟩
theorem test_witness_Assembly : Asm.assemble ["NOOP".toList, "JUMP 0".toList] = some [0, 0x09_00000000_00000000#72] ∧
    ["NOOP".toList, "JUMP 0".toList][1]? = some "JUMP 0".toList := by decide
theorem test_witness_Assembly_accepted :
    ∀ line ∈ ["NOOP".toList, "JUMP 0".toList], ∃ i, Asm.parseLine line = .instr i := by
  intro line h
  rcases List.mem_pair.mp h with rfl | rfl
  · exact ⟨.noop, by decide⟩
  · exact ⟨.jump 0, by decide⟩
theorem test_witness_Assembly_rejected : "HALT".toList ∈ ["HALT".toList] ∧
    Asm.parseLine "HALT".toList = .error .unknownMnemonic := by decide

end Sys2Proof.Tests
end

section
/-! SUPPORT. What executing an instruction does, as a relation: one constructor a way it can end. -/

namespace Sys2Proof.Machine

/-- The operand check that fails in a program of length `n`, and the cause it raises: the address is checked before the
register (spec/60_exceptions.md R206). No check reads the accumulator, a register or data memory. -/
inductive FailsCheck (n : PcWord) (i : Instr) : FaultCause → Prop
  | address {a : Word} (ho : i.addrOperand = some a) (hc : dataAddress a = none) : FailsCheck n i (.illegalMemoryAccess a)
  | register {r : Word} (ho : i.regOperand = some r) (hc : regIndex r = none)
      (ha : ∀ a, i.addrOperand = some a → dataAddress a ≠ none) : FailsCheck n i (.illegalRegister r)
  | target {x : Word} (ho : i.tgtOperand = some x) (hc : jumpTarget n x = none) : FailsCheck n i (.illegalJump x)

/-- The ways in which executing an instruction in state `s` can end (spec/41_data_movement.md, spec/42_arithmetic.md,
spec/43_control_transfer.md): a fault, or the instruction's own writes and its `pc`. -/
inductive Executes (s : State) : Instr → State → Prop
  | faults {i : Instr} {c : FaultCause} (hc : FailsCheck s.len i c) : Executes s i (s.raise c)
  | noop : Executes s .noop s.incPc
  | load {imm : Word} : Executes s (.load imm) (s.setAcc imm).incPc
  | r2aLoad {r : Word} {k : Fin Config.numRegs} (hr : regIndex r = some k) :
      Executes s (.r2aLoad r) (s.setAcc (s.readReg k)).incPc
  | m2rLoad {a r : Word} {b : Fin Config.memWords} {k : Fin Config.numRegs} (ha : dataAddress a = some b)
      (hr : regIndex r = some k) : Executes s (.m2rLoad a r) (s.writeReg k (s.readMem b)).incPc
  | m2aLoad {a : Word} {b : Fin Config.memWords} (ha : dataAddress a = some b) :
      Executes s (.m2aLoad a) (s.setAcc (s.readMem b)).incPc
  | a2rStore {r : Word} {k : Fin Config.numRegs} (hr : regIndex r = some k) :
      Executes s (.a2rStore r) (s.writeReg k s.acc).incPc
  | a2mStore {a : Word} {b : Fin Config.memWords} (ha : dataAddress a = some b) :
      Executes s (.a2mStore a) (s.writeMem b s.acc).incPc
  | r2mStore {r a : Word} {b : Fin Config.memWords} {k : Fin Config.numRegs} (ha : dataAddress a = some b)
      (hr : regIndex r = some k) : Executes s (.r2mStore r a) (s.writeMem b (s.readReg k)).incPc
  | iAdd {imm : Word} : Executes s (.iAdd imm) (s.setAcc (s.acc + imm)).incPc
  | jump {x : Word} {u : PcWord} (hx : jumpTarget s.len x = some u) : Executes s (.jump x) (s.jumpTo u)
  | jumpNegTaken {x : Word} {u : PcWord} (hx : jumpTarget s.len x = some u) (hn : s.accNegative = true) :
      Executes s (.jumpNeg x) (s.jumpTo u)
  | jumpNegUntaken {x : Word} {u : PcWord} (hx : jumpTarget s.len x = some u) (hn : s.accNegative = false) :
      Executes s (.jumpNeg x) s.incPc

/-- Whatever state `exec` answers, the relation admits it. -/
theorem executes_of_exec {i : Instr} {s t : State} (h : exec i s = .next t) : Executes s i t := by
  cases i with
  | noop => cases h; exact .noop
  | load imm => cases h; exact .load
  | iAdd imm => cases h; exact .iAdd
  | r2aLoad r =>
    cases hr : regIndex r <;> simp only [exec, execR2aLoad, hr] at h <;> cases h
    · exact .faults (.register rfl hr nofun)
    · exact .r2aLoad hr
  | a2rStore r =>
    cases hr : regIndex r <;> simp only [exec, execA2rStore, hr] at h <;> cases h
    · exact .faults (.register rfl hr nofun)
    · exact .a2rStore hr
  | m2aLoad a =>
    cases ha : dataAddress a <;> simp only [exec, execM2aLoad, ha] at h <;> cases h
    · exact .faults (.address rfl ha)
    · exact .m2aLoad ha
  | a2mStore a =>
    cases ha : dataAddress a <;> simp only [exec, execA2mStore, ha] at h <;> cases h
    · exact .faults (.address rfl ha)
    · exact .a2mStore ha
  | m2rLoad a r =>
    cases ha : dataAddress a with
    | none => simp only [exec, execM2rLoad, ha] at h; cases h; exact .faults (.address rfl ha)
    | some b =>
      cases hr : regIndex r <;> simp only [exec, execM2rLoad, ha, hr] at h <;> cases h
      · exact .faults (.register rfl hr fun _ e => by cases e; simp [ha])
      · exact .m2rLoad ha hr
  | r2mStore r a =>
    cases ha : dataAddress a with
    | none => simp only [exec, execR2mStore, ha] at h; cases h; exact .faults (.address rfl ha)
    | some b =>
      cases hr : regIndex r <;> simp only [exec, execR2mStore, ha, hr] at h <;> cases h
      · exact .faults (.register rfl hr fun _ e => by cases e; simp [ha])
      · exact .r2mStore ha hr
  | jump x =>
    cases hx : jumpTarget s.len x <;> simp only [exec, execJump, hx] at h <;> cases h
    · exact .faults (.target rfl hx)
    · exact .jump hx
  | jumpNeg x =>
    cases hx : jumpTarget s.len x with
    | none => simp only [exec, execJumpNeg, hx] at h; cases h; exact .faults (.target rfl hx)
    | some u =>
      cases hn : s.accNegative <;> simp only [exec, execJumpNeg, hx, hn] at h <;> cases h
      · exact .jumpNegUntaken hx hn
      · exact .jumpNegTaken hx hn

/-- A failing check raises its cause, whichever instruction asks for it. -/
theorem exec_of_failsCheck {i : Instr} {s : State} {c : FaultCause} (hc : FailsCheck s.len i c) :
    exec i s = .next (s.raise c) := by
  cases hc with
  | address ho ha => cases i <;> cases ho <;> simp only [exec, execM2rLoad, execM2aLoad, execA2mStore, execR2mStore, ha]
  | target ho hx => cases i <;> cases ho <;> simp only [exec, execJump, execJumpNeg, hx]
  | register ho hr ha =>
    cases i with
    | noop | load | m2aLoad | a2mStore | iAdd | jump | jumpNeg => cases ho
    | r2aLoad => cases ho; simp only [exec, execR2aLoad, hr]
    | a2rStore => cases ho; simp only [exec, execA2rStore, hr]
    | m2rLoad a =>
      obtain ⟨b, hb⟩ := Option.ne_none_iff_exists'.mp (ha a rfl)
      cases ho; simp only [exec, execM2rLoad, hb, hr]
    | r2mStore _ a =>
      obtain ⟨b, hb⟩ := Option.ne_none_iff_exists'.mp (ha a rfl)
      cases ho; simp only [exec, execR2mStore, hb, hr]

/-- The relation is exactly what `exec` answers, so later proofs split the ways to end and do not unfold `exec`. -/
theorem exec_eq_next_iff {i : Instr} {s t : State} : exec i s = .next t ↔ Executes s i t := by
  refine ⟨executes_of_exec, fun h => ?_⟩
  cases h with
  | faults hc => exact exec_of_failsCheck hc
  | noop | load | iAdd => rfl
  | r2aLoad hr => simp only [exec, execR2aLoad, hr]
  | a2rStore hr => simp only [exec, execA2rStore, hr]
  | m2aLoad ha => simp only [exec, execM2aLoad, ha]
  | a2mStore ha => simp only [exec, execA2mStore, ha]
  | m2rLoad ha hr => simp only [exec, execM2rLoad, ha, hr]
  | r2mStore ha hr => simp only [exec, execR2mStore, ha, hr]
  | jump hx => simp only [exec, execJump, hx]
  | jumpNegTaken hx hn => simp only [exec, execJumpNeg, hx, hn, if_true]
  | jumpNegUntaken hx hn => simp only [exec, execJumpNeg, hx, hn, Bool.false_eq_true, if_false]

end Sys2Proof.Machine
end

section
/-! SUPPORT. What every step keeps, and the one induction over a run of steps. -/

namespace Sys2Proof.Machine

/-! ### The step -/

/-- The step always answers a next state. -/
theorem step_next (s : State) : ∃ t, step s = .next t := by
  rcases s.fetch_cases with ⟨_, f⟩ | ⟨_, _, f⟩ | ⟨_, _, f⟩ | ⟨_, _, _, _, f⟩ | ⟨_, _, i, _, f⟩
  · exact ⟨s, by simp only [step, f]⟩
  · exact ⟨s.halt, by simp only [step, f]⟩
  · exact ⟨s.raise .outOfBoundsFetch, by simp only [step, f]⟩
  · exact ⟨s.raise (.illegalInstruction (s.imemWord s.pc.toNat)), by simp only [step, f]⟩
  · obtain ⟨u, hu⟩ := exec_next i s
    exact ⟨s.emitRetire (s.imemWord s.pc.toNat) u, by simp only [step, f, hu, State.retire_next]⟩

/-- A core that is not RUNNING answers its own state (log 2). -/
theorem step_notRunning {s : State} (h : s.run ≠ .running) : step s = .next s := by
  simp only [step, State.fetch_notRunning h]

/-- An instruction leaves a RUNNING core RUNNING or FAULTED. -/
theorem exec_run {i : Instr} {s t : State} (hr : s.run = .running) (he : exec i s = .next t) :
    t.run = .running ∨ t.run = .faulted := by
  rcases exec_cases i s with ⟨c, e, _⟩ | ⟨u, e, _, hu⟩ <;> rw [he] at e <;> cases e
  · exact .inr rfl
  · exact .inl (hu.run.trans hr)

/-- No instruction writes `N` or the instruction store. -/
theorem exec_program {i : Instr} {s t : State} (he : exec i s = .next t) : t.len = s.len ∧ t.imem = s.imem := by
  rcases exec_cases i s with ⟨c, e, _⟩ | ⟨u, e, _, hu⟩ <;> rw [he] at e <;> cases e
  · exact ⟨rfl, rfl⟩
  · exact ⟨hu.len, hu.imem⟩

/-- No step writes `N` or the instruction store (spec/40_execution_cycle.md R108). -/
theorem step_program {s t : State} (hs : step s = .next t) : t.len = s.len ∧ t.imem = s.imem := by
  rcases step_cases hs with ⟨_, rfl⟩ | ⟨_, _, rfl⟩ | ⟨_, _, rfl⟩ | ⟨_, _, _, rfl⟩ | ⟨_, _, i, _, u, hu, rfl⟩
  case inr.inr.inr.inr => simpa using exec_program hu
  all_goals exact ⟨rfl, rfl⟩

/-- An instruction inside the program that completes leaves `pc` inside the program or at its end (spec/10_state.md R27). -/
theorem Completes.pc_le {s t : State} (hc : Completes s t) (hl : s.pc.toNat < s.len.toNat) : t.pc.toNat ≤ s.len.toNat := by
  rcases hc.pc with e | l
  · rw [e, PcWord.toNat_add_one_of_lt hl]; exact hl
  · exact l.le

/-! ### Runs -/

theorem run_zero (s : State) : Host.Core.run Sys2Proof.core 0 s = .next s := rfl

/-- One step more, taken first. -/
theorem run_succ {s u : State} (k : Nat) (hs : step s = .next u) :
    Host.Core.run Sys2Proof.core (k + 1) s = Host.Core.run Sys2Proof.core k u := by
  have hc : Sys2Proof.core.step s = .next u := hs
  simp only [Host.Core.run, hc]

/-- What every step keeps holds after any number of steps, and there always is a state after them. -/
theorem run_keeps {P : State → Prop} (hP : ∀ s t, P s → step s = .next t → P t) (k : Nat) {s : State} (h : P s) :
    ∃ t, Host.Core.run Sys2Proof.core k s = .next t ∧ P t := by
  induction k generalizing s with
  | zero => exact ⟨s, run_zero s, h⟩
  | succ k ih =>
    obtain ⟨u, hu⟩ := step_next s
    rw [run_succ k hu]
    exact ih (hP s u h hu)

/-- Any number of steps of a core that is not RUNNING answers its own state (log 2). -/
theorem run_notRunning {s : State} (h : s.run ≠ .running) (k : Nat) : Host.Core.run Sys2Proof.core k s = .next s := by
  induction k with
  | zero => exact run_zero s
  | succ k ih => rw [run_succ k (step_notRunning h), ih]

end Sys2Proof.Machine
end

section
/-! PROOFS. A program that passes every check never faults (O38). -/

namespace Sys2Proof.Machine

/-- Whether a program passes every check depends on `N` and the instruction store alone. -/
theorem State.programChecked_of_program {s t : State} (hl : t.len = s.len) (hi : t.imem = s.imem)
    (h : s.programChecked) : t.programChecked := by
  simpa only [State.programChecked, State.imemWord, hl, hi] using h

/-- The word that a checked program fetches is an instruction that completes. -/
theorem State.programChecked.completes {s : State} (h : s.programChecked) (hl : s.pc.toNat < s.len.toNat) :
    ∃ i t, decode (s.imemWord s.pc.toNat) = .instr i ∧ exec i s = .next t ∧ Completes s t := by
  obtain ⟨i, hd, hw⟩ := h s.pc.toNat hl
  rcases exec_cases i s with ⟨_, _, hf, _⟩ | ⟨t, ht, _, hc⟩
  · rw [hw] at hf; cases hf
  · exact ⟨i, t, hd, ht, hc⟩

/-- Neither fetch fault can meet a checked state, its instruction completes, and the clean halt is no fault. -/
theorem State.Checked.of_step {s t : State} (h : s.Checked) (hs : step s = .next t) : t.Checked := by
  have hprog : t.programChecked := State.programChecked_of_program (step_program hs).1 (step_program hs).2 h.program
  have hpc := h.pcWithin
  rcases step_cases hs with ⟨_, rfl⟩ | ⟨_, _, rfl⟩ | ⟨_, l, rfl⟩ | ⟨_, l, ⟨why, hd⟩, rfl⟩ | ⟨hr, l, i, hd, u, hu, rfl⟩
  · exact h
  · exact ⟨nofun, hpc, hprog⟩
  · omega
  · obtain ⟨i, _, hi, _⟩ := h.program.completes l
    rw [hd] at hi; cases hi
  · obtain ⟨j, v, hj, hv, hc⟩ := h.program.completes l
    rw [hd] at hj; cases hj
    rw [hu] at hv; cases hv
    exact ⟨by simp [hc.run, hr], by simpa [hc.len] using hc.pc_le l, hprog⟩

/-- Settles O38: the step lemma `State.Checked.of_step`, and the induction over runs. -/
theorem checkedProgramNeverFaults : Obligations.CheckedProgramNeverFaults := by
  have hstep : ∀ s t : State, s.Checked → step s = .next t → t.Checked := fun _ _ h => h.of_step
  refine ⟨hstep, fun s h k => ?_⟩
  obtain ⟨t, ht, hc⟩ := run_keeps hstep k h
  exact ⟨t, ht, hc, hc.notFaulted⟩

end Sys2Proof.Machine
end

section
/-! PROOFS. Every step keeps the invariant (O40). -/

namespace Sys2Proof.Machine

theorem FaultCause.record_fPc (c : FaultCause) (s : State) : (c.record s).fPc = s.pc := by cases c <;> rfl

/-- The codes of spec/60_exceptions.md R201: 1 is the fetch past the end, the others are 2 to 5. -/
theorem FaultCause.record_cause (c : FaultCause) (s : State) (hc : c ≠ .outOfBoundsFetch) :
    2 ≤ (c.record s).cause.toNat ∧ (c.record s).cause.toNat ≤ 5 := by
  cases c with
  | outOfBoundsFetch => exact absurd rfl hc
  | illegalRegister | illegalMemoryAccess | illegalJump | illegalInstruction => simp [FaultCause.record]

/-- A fault raised inside the program keeps the invariant. -/
theorem Inv.raise {s : State} {c : FaultCause} (h : Inv s) (hl : s.pc.toNat < s.len.toNat) (hc : c ≠ .outOfBoundsFetch) :
    Inv (s.raise c) where
  memWf := h.memWf
  lenFits := h.lenFits
  loaded := h.loaded
  pcWithin := h.pcWithin
  idlePc := nofun
  haltedPc := nofun
  noRecord hr := absurd rfl hr
  record _ := ⟨(c.record_cause s hc).1, (c.record_cause s hc).2, c.record_fPc s, hl⟩

/-- The clean halt keeps the invariant. -/
theorem Inv.halt {s : State} (h : Inv s) (hr : s.run = .running) (hp : s.pc = s.len) : Inv s.halt where
  memWf := h.memWf
  lenFits := h.lenFits
  loaded := h.loaded
  pcWithin := h.pcWithin
  idlePc := nofun
  haltedPc _ := hp
  noRecord _ := h.noRecord (by simp [hr])
  record := nofun

/-- An instruction that completes keeps the invariant. -/
theorem Inv.completes {s t : State} (h : Inv s) (hr : s.run = .running) (hl : s.pc.toNat < s.len.toNat)
    (hc : Completes s t) : Inv t where
  memWf := hc.memWf h.memWf
  lenFits := hc.len ▸ h.lenFits
  loaded := by rw [hc.len, hc.imem]; exact h.loaded
  pcWithin := hc.len ▸ hc.pc_le hl
  idlePc := by simp [hc.run, hr]
  haltedPc := by simp [hc.run, hr]
  noRecord _ := hc.fault.trans (h.noRecord (by simp [hr]))
  record := by simp [hc.run, hr]

/-- The invariant says nothing of what the retire port has emitted. -/
theorem Inv.emitRetire {s t : State} (w : InstrWord) (h : Inv t) : Inv (s.emitRetire w t) := by
  constructor <;> simp only [State.emitRetire_mem, State.emitRetire_len, State.emitRetire_imem, State.emitRetire_pc,
    State.emitRetire_run, State.emitRetire_fault]
  exacts [h.memWf, h.lenFits, h.loaded, h.pcWithin, h.idlePc, h.haltedPc, h.noRecord, h.record]

/-- An instruction run inside the program keeps the invariant, whether it faults or completes. -/
theorem Inv.of_exec {s t : State} {i : Instr} (h : Inv s) (hr : s.run = .running) (hl : s.pc.toNat < s.len.toNat)
    (he : exec i s = .next t) : Inv t := by
  rcases exec_cases i s with ⟨c, e, _, hc⟩ | ⟨u, e, _, hc⟩ <;> rw [he] at e <;> cases e
  · exact h.raise hl (by rcases hc with ⟨_, rfl⟩ | ⟨_, rfl⟩ | ⟨_, rfl⟩ <;> nofun)
  · exact h.completes hr hl hc

/-- Settles O40: the fetch past the end cannot meet `pc <= N`, and every other way to step keeps the invariant. -/
theorem everyStepKeepsTheInvariant : Obligations.EveryStepKeepsTheInvariant := by
  intro s t h hs
  rcases step_cases hs with ⟨_, rfl⟩ | ⟨hr, e, rfl⟩ | ⟨_, l, rfl⟩ | ⟨_, l, _, rfl⟩ | ⟨hr, l, i, _, u, hu, rfl⟩
  · exact h
  · exact h.halt hr (BitVec.eq_of_toNat_eq e)
  · exact absurd h.pcWithin (by omega)
  · exact h.raise l nofun
  · exact (h.of_exec hr l hu).emitRetire _

end Sys2Proof.Machine
end

section
/-! PROOFS. Which instruction reaches the accumulator and the register file (O27, O28, O29). -/

namespace Sys2Proof.Machine

/-! ### The accumulator -/

/-- The condition of JUMP_NEG is the sign bit. -/
theorem State.accNegative_eq_signBit (s : State) : s.accNegative = s.acc.getLsbD 31 :=
  (BitVec.msb_eq_toInt (x := s.acc)).symm.trans (BitVec.msb_eq_getLsbD_last s.acc)

/-- Settles O27: the target is good, so the two ways left to end are told apart by the sign bit. -/
theorem jumpNegConditionIsTheSignBit : Obligations.JumpNegConditionIsTheSignBit := by
  intro x s hx
  have ht : jumpTarget s.len x = some x := jumpTarget_eq_some.mpr ⟨hx, rfl⟩
  rw [← s.accNegative_eq_signBit, exec_eq_next_iff]
  cases hn : s.accNegative with
  | true => exact .jumpNegTaken ht hn
  | false => exact .jumpNegUntaken ht hn

/-- An instruction that does not write the accumulator leaves it. -/
theorem Executes.acc_of_not_writesAcc {s t : State} {i : Instr} (h : Executes s i t) (hw : i.writesAcc = false) :
    t.acc = s.acc := by
  cases h with
  | load | r2aLoad | m2aLoad | iAdd => cases hw
  | faults | noop | m2rLoad | a2rStore | a2mStore | r2mStore | jump | jumpNegTaken | jumpNegUntaken => rfl

/-- The record of a fault holds nothing of the accumulator. -/
theorem State.raise_setAcc (s : State) (c : FaultCause) (v : Word) : (s.setAcc v).raise c = (s.raise c).setAcc v := by
  cases c <;> rfl

/-- An instruction that does not read the accumulator ends in the same way from another one: it overwrites the
accumulator, or carries the other value along. -/
theorem Executes.setAcc_of_not_readsAcc {s t : State} {i : Instr} (v : Word) (h : Executes s i t)
    (hr : i.readsAcc = false) :
    Executes (s.setAcc v) i t ∨ t.acc = s.acc ∧ Executes (s.setAcc v) i (t.setAcc v) := by
  cases h with
  | a2rStore | a2mStore | iAdd | jumpNegTaken | jumpNegUntaken => cases hr
  | load => exact .inl .load
  | r2aLoad h => exact .inl (.r2aLoad h)
  | m2aLoad h => exact .inl (.m2aLoad h)
  | faults h => exact .inr ⟨rfl, State.raise_setAcc s _ v ▸ .faults h⟩
  | noop => exact .inr ⟨rfl, .noop⟩
  | m2rLoad ha h => exact .inr ⟨rfl, .m2rLoad ha h⟩
  | r2mStore ha h => exact .inr ⟨rfl, .r2mStore ha h⟩
  | jump h => exact .inr ⟨rfl, .jump h⟩

/-- Settles O28, by the ways to end that writing and reading the accumulator leave. -/
theorem accumulatorReadersAndWriters : Obligations.AccumulatorReadersAndWriters := by
  refine ⟨fun i s t hw he => (exec_eq_next_iff.mp he).acc_of_not_writesAcc hw, fun i s t v hr he => ?_⟩
  rcases (exec_eq_next_iff.mp he).setAcc_of_not_readsAcc v hr with h | ⟨ha, h⟩
  · exact ⟨t, exec_eq_next_iff.mpr h, rfl, .inl rfl⟩
  · exact ⟨t.setAcc v, exec_eq_next_iff.mpr h, rfl, .inr ⟨ha, rfl⟩⟩

/-! ### The register file -/

/-- The record of a fault holds nothing of the register file. -/
theorem State.raise_withRegs (s : State) (c : FaultCause) (rs : Vector Word Config.numRegs) :
    State.raise { s with regs := rs } c = { s.raise c with regs := rs } := by
  cases c <;> rfl

/-- An instruction with no register operand carries any register file along. -/
theorem Executes.withRegs_of_no_regOperand {s t : State} {i : Instr} (rs : Vector Word Config.numRegs)
    (h : Executes s i t) (ho : i.regOperand = none) : Executes { s with regs := rs } i { t with regs := rs } := by
  cases h with
  | r2aLoad | m2rLoad | a2rStore | r2mStore => cases ho
  | faults h => exact State.raise_withRegs s _ rs ▸ .faults h
  | noop => exact .noop
  | load => exact .load
  | m2aLoad h => exact .m2aLoad h
  | a2mStore h => exact .a2mStore h
  | iAdd => exact .iAdd
  | jump h => exact .jump h
  | jumpNegTaken h hn => exact .jumpNegTaken h hn
  | jumpNegUntaken h hn => exact .jumpNegUntaken h hn

/-- What an instruction leaves in the register file: the file as it was, or, where it writes a register and its operand
names register `k`, the file with another word at `k`. -/
theorem Executes.regs_cases {s t : State} {i : Instr} (h : Executes s i t) :
    t.regs = s.regs ∨ ∃ r k v, i.writtenReg = some r ∧ regIndex r = some k ∧ t.regs = s.regs.set k v := by
  cases h with
  | m2rLoad _ hr | a2rStore hr => exact .inr ⟨_, _, _, rfl, hr, rfl⟩
  | faults | noop | load | r2aLoad | m2aLoad | a2mStore | r2mStore | iAdd | jump | jumpNegTaken | jumpNegUntaken =>
    exact .inl rfl

/-- Settles O29: the register file is not read without a register operand, and `Executes.regs_cases` says what is written. -/
theorem registerFileReachedOnlyByItsInstructions : Obligations.RegisterFileReachedOnlyByItsInstructions := by
  refine ⟨fun i s t rs ho he => exec_eq_next_iff.mpr ((exec_eq_next_iff.mp he).withRegs_of_no_regOperand rs ho),
    fun i s t hw he => ?_, fun i s t r hw he => ?_⟩
  · rcases (exec_eq_next_iff.mp he).regs_cases with h | ⟨_, _, _, hr, _⟩
    · exact h
    · rw [hw] at hr; cases hr
  · rcases (exec_eq_next_iff.mp he).regs_cases with h | ⟨r', k', v, hr, hk', h⟩
    · exact ⟨fun _ => h, fun _ _ j _ => by simp only [State.readReg, h]⟩
    · rw [hw] at hr; cases hr
      refine ⟨fun hn => (nomatch hn.symm.trans hk'), fun k hk j hj => ?_⟩
      cases hk.symm.trans hk'
      calc t.readReg j = (s.writeReg k' v).readReg j := by simp only [State.readReg, State.writeReg_regs, h]
        _ = s.readReg j := by rw [State.readReg_writeReg, if_neg hj]

end Sys2Proof.Machine
end

section
/-! SUPPORT. What each host operation does, as equations and as one relation over all of them (spec/10_state.md R40). -/

namespace Sys2Proof.Machine

/-! ### The operations with an index: in range, and out of range -/

theorem hostOp_writeReg_inRange (s : State) (r : Fin Config.numRegs) (v : Word) :
    hostOp (.writeReg r.val v) s = s.whenIdle (s.writeReg r v) := by
  simp only [hostOp, hostIndex_of_inRange r rfl]

theorem hostOp_writeMem_inRange (s : State) (a : Fin Config.memWords) (v : Word) :
    hostOp (.writeMem a.val v) s = s.whenIdle (s.writeMem a v) := by
  simp only [hostOp, hostIndex_of_inRange a rfl]

theorem hostOp_readReg_inRange (s : State) (r : Fin Config.numRegs) :
    hostOp (.readReg r.val) s = s.whenNotRunning (.word (s.readReg r)) := by
  simp only [hostOp, hostIndex_of_inRange r rfl]

theorem hostOp_readMem_inRange (s : State) (a : Fin Config.memWords) :
    hostOp (.readMem a.val) s = s.whenNotRunning (.word (s.readMem a)) := by
  simp only [hostOp, hostIndex_of_inRange a rfl]

theorem hostOp_readImem_inRange (s : State) {k : Nat} (hk : k < s.len.toNat) :
    hostOp (.readImem k) s = s.whenNotRunning (.instrWord (s.imemWord k)) := by
  simp only [hostOp, hostIndex_of_inRange (⟨k, hk⟩ : Fin s.len.toNat) rfl]

theorem hostOp_writeReg_outOfRange (s : State) {i : Int} (v : Word) (hi : ¬ (0 ≤ i ∧ i < Config.numRegs)) :
    hostOp (.writeReg i v) s = (s, .refused) := by
  simp only [hostOp, hostIndex_of_outOfRange hi]

theorem hostOp_writeMem_outOfRange (s : State) {i : Int} (v : Word) (hi : ¬ (0 ≤ i ∧ i < Config.memWords)) :
    hostOp (.writeMem i v) s = (s, .refused) := by
  simp only [hostOp, hostIndex_of_outOfRange hi]

theorem hostOp_readReg_outOfRange (s : State) {i : Int} (hi : ¬ (0 ≤ i ∧ i < Config.numRegs)) :
    hostOp (.readReg i) s = (s, .refused) := by
  simp only [hostOp, hostIndex_of_outOfRange hi]

theorem hostOp_readMem_outOfRange (s : State) {i : Int} (hi : ¬ (0 ≤ i ∧ i < Config.memWords)) :
    hostOp (.readMem i) s = (s, .refused) := by
  simp only [hostOp, hostIndex_of_outOfRange hi]

theorem hostOp_readImem_outOfRange (s : State) {i : Int} (hi : ¬ (0 ≤ i ∧ i < s.len.toNat)) :
    hostOp (.readImem i) s = (s, .refused) := by
  simp only [hostOp, hostIndex_of_outOfRange hi]

/-! ### All of them at once -/

/-- The operations of R40 that act in IDLE alone: the program load, the preloads and start. -/
def HostOp.actsInIdle : HostOp → Bool
  | .loadProgram _ | .writeAcc _ | .writeReg _ _ | .writeMem _ _ | .start => true
  | .reset | .readRun | .readAcc | .readPc | .readLen | .readFault | .readReg _ | .readMem _ | .readImem _ => false

/-- The ways in which a host operation in state `s` can end: the state it leaves and the answer. Which value a read answers,
the equations above say. -/
inductive HostEffect (s : State) : HostOp → State × HostAnswer → Prop
  | reset : HostEffect s .reset (s.hostReset, .done)
  | loadProgram {ws : List InstrWord} (hi : s.run = .idle) (hf : ws.length ≤ Config.imemCapacity) :
      HostEffect s (.loadProgram ws) (s.loadWords ws, .done)
  | writeAcc {v : Word} (hi : s.run = .idle) : HostEffect s (.writeAcc v) (s.setAcc v, .done)
  | writeReg {i : Int} {v : Word} {r : Fin Config.numRegs} (hi : s.run = .idle) (hr : hostIndex Config.numRegs i = some r) :
      HostEffect s (.writeReg i v) (s.writeReg r v, .done)
  | writeMem {i : Int} {v : Word} {a : Fin Config.memWords} (hi : s.run = .idle) (ha : hostIndex Config.memWords i = some a) :
      HostEffect s (.writeMem i v) (s.writeMem a v, .done)
  | start (hi : s.run = .idle) : HostEffect s .start (s.startRun, .done)
  | read {op : HostOp} {a : HostAnswer} (hw : op.actsInIdle = false) (hne : op ≠ .reset) (ha : a ≠ .refused)
      (hr : op = .readRun ∨ s.run ≠ .running) : HostEffect s op (s, a)
  | refused {op : HostOp} (hne : op ≠ .reset) (hr : op ≠ .readRun) (hs : op = .start → s.run ≠ .idle) :
      HostEffect s op (s, .refused)

/-- A guarded read of an operation that is neither reset nor one that acts in IDLE. -/
theorem hostEffect_whenNotRunning {s : State} {op : HostOp} {a : HostAnswer} (hw : op.actsInIdle = false)
    (hne : op ≠ .reset) (hr : op ≠ .readRun) (ha : a ≠ .refused) : HostEffect s op (s.whenNotRunning a) := by
  by_cases h : s.run = .running
  · rw [s.whenNotRunning_refused h]; exact .refused hne hr (by rintro rfl; cases hw)
  · rw [s.whenNotRunning_reads h]; exact .read hw hne ha (.inr h)

/-- A guarded write that has the effect in IDLE. -/
theorem hostEffect_whenIdle {s t : State} {op : HostOp} (hw : op.actsInIdle = true)
    (h : s.run = .idle → HostEffect s op (t, .done)) : HostEffect s op (s.whenIdle t) := by
  rcases s.whenIdle_cases t with ⟨e, hi⟩ | ⟨e, hi⟩
  · rw [e]; exact .refused (by rintro rfl; cases hw) (by rintro rfl; cases hw) fun _ => hi
  · rw [e]; exact h hi

/-- Every host operation ends in one of the ways of `HostEffect`. -/
theorem hostOp_effect (op : HostOp) (s : State) : HostEffect s op (hostOp op s) := by
  cases op with
  | reset => exact .reset
  | readRun => exact .read rfl nofun nofun (.inl rfl)
  | readAcc | readPc | readLen | readFault => exact hostEffect_whenNotRunning rfl nofun nofun nofun
  | writeAcc v => exact hostEffect_whenIdle rfl .writeAcc
  | start => exact hostEffect_whenIdle rfl .start
  | loadProgram ws =>
    simp only [hostOp]
    split
    · exact hostEffect_whenIdle rfl fun hi => .loadProgram hi ‹_›
    · exact .refused nofun nofun nofun
  | writeReg i v =>
    simp only [hostOp]
    split
    · exact .refused nofun nofun nofun
    · exact hostEffect_whenIdle rfl (.writeReg · ‹_›)
  | writeMem i v =>
    simp only [hostOp]
    split
    · exact .refused nofun nofun nofun
    · exact hostEffect_whenIdle rfl (.writeMem · ‹_›)
  | readReg i | readMem i | readImem i =>
    simp only [hostOp]
    split
    · exact .refused nofun nofun nofun
    · exact hostEffect_whenNotRunning rfl nofun nofun nofun

/-- Out of IDLE, no operation but reset changes the state. -/
theorem HostEffect.state_of_not_idle {s : State} {op : HostOp} {p : State × HostAnswer} (h : HostEffect s op p)
    (hi : s.run ≠ .idle) (hne : op ≠ .reset) : p.1 = s := by
  cases h with
  | reset => exact absurd rfl hne
  | loadProgram h | writeAcc h | writeReg h | writeMem h | start h => exact absurd h hi
  | read | refused => rfl

/-- An answer of refusal comes with the state as it was. -/
theorem HostEffect.state_of_refused {s : State} {op : HostOp} {p : State × HostAnswer} (h : HostEffect s op p)
    (hr : p.2 = .refused) : p.1 = s := by
  cases h with
  | reset | loadProgram | writeAcc | writeReg | writeMem | start => cases hr
  | read | refused => rfl

/-- Out of IDLE, the operations that act in IDLE are refused. -/
theorem HostEffect.refused_of_not_idle {s : State} {op : HostOp} {p : State × HostAnswer} (h : HostEffect s op p)
    (hi : s.run ≠ .idle) (hw : op.actsInIdle = true) : p = (s, .refused) := by
  cases h with
  | reset => cases hw
  | loadProgram h | writeAcc h | writeReg h | writeMem h | start h => exact absurd h hi
  | read h => rw [hw] at h; cases h
  | refused => rfl

/-- In RUNNING, every operation but reset and the read of `run` is refused. -/
theorem HostEffect.refused_of_running {s : State} {op : HostOp} {p : State × HostAnswer} (h : HostEffect s op p)
    (hr : s.run = .running) (hne : op ≠ .reset) (hrun : op ≠ .readRun) : p = (s, .refused) := by
  cases h with
  | reset => exact absurd rfl hne
  | loadProgram h | writeAcc h | writeReg h | writeMem h | start h => rw [hr] at h; cases h
  | read _ _ _ h => exact absurd hr (h.resolve_left hrun)
  | refused => rfl

/-- The run state that a host operation leaves (spec/10_state.md R31). -/
theorem HostEffect.run {s : State} {op : HostOp} {p : State × HostAnswer} (h : HostEffect s op p) :
    p.1.run = if op = .reset then .idle else if op = .start ∧ s.run = .idle then .running else s.run := by
  cases h with
  | reset => rfl
  | start h => simp [h]
  | loadProgram | writeAcc | writeReg | writeMem => simp
  | read hw hne => rw [if_neg hne, if_neg (by rintro ⟨rfl, _⟩; cases hw)]
  | refused hne _ hs => rw [if_neg hne, if_neg fun h => hs h.1 h.2]

end Sys2Proof.Machine
end

section
/-! PROOFS. The host operations (O46, O47, O48). -/

namespace Sys2Proof.Machine

/-- Settles O48, for every operation, by the relation that all of them keep. -/
theorem refusedHostOperationChangesNothing : Obligations.RefusedHostOperationChangesNothing :=
  ⟨fun op s => (hostOp_effect op s).state_of_refused,
    fun op s hr hne hrun => (hostOp_effect op s).refused_of_running hr hne hrun⟩

/-- The reads of a core that is not RUNNING, with the index in range, answer the state. -/
theorem hostReads_of_notRunning {s : State} (h : s.run ≠ .running) :
    hostOp .readAcc s = (s, .word s.acc) ∧ hostOp .readPc s = (s, .index s.pc) ∧
    hostOp .readLen s = (s, .index s.len) ∧ hostOp .readFault s = (s, .faultRecord s.fault) ∧
    (∀ r : Fin Config.numRegs, hostOp (.readReg r.val) s = (s, .word (s.readReg r))) ∧
    (∀ a : Fin Config.memWords, hostOp (.readMem a.val) s = (s, .word (s.readMem a))) ∧
    ∀ k : Nat, k < s.len.toNat → hostOp (.readImem k) s = (s, .instrWord (s.imemWord k)) := by
  have reads := fun a => s.whenNotRunning_reads h a
  exact ⟨reads _, reads _, reads _, reads _, fun r => (hostOp_readReg_inRange s r).trans (reads _),
    fun a => (hostOp_readMem_inRange s a).trans (reads _), fun k hk => (hostOp_readImem_inRange s hk).trans (reads _)⟩

/-- Settles O47: `hostReads_of_notRunning`, the refusal of every read in RUNNING, and the index checks. -/
theorem hostReadsAnswerTheStateAndChangeNothing : Obligations.HostReadsAnswerTheStateAndChangeNothing := by
  intro s
  refine ⟨rfl, hostReads_of_notRunning, fun hr i => ?_, fun i => ⟨hostOp_readReg_outOfRange s,
    hostOp_readMem_outOfRange s, hostOp_readImem_outOfRange s⟩⟩
  have refuses := fun op => (hostOp_effect op s).refused_of_running hr
  exact ⟨refuses _ nofun nofun, refuses _ nofun nofun, refuses _ nofun nofun, refuses _ nofun nofun,
    refuses _ nofun nofun, refuses _ nofun nofun, refuses _ nofun nofun⟩

/-- Settles O46: what each preload writes in IDLE, the refusal of all of them out of it, and the index checks. -/
theorem hostPreloadsAndStartActInIdleOnly : Obligations.HostPreloadsAndStartActInIdleOnly := by
  intro s
  refine ⟨fun hi => ?_, fun hi i v => ?_, fun i v => ⟨hostOp_writeReg_outOfRange s v, hostOp_writeMem_outOfRange s v⟩⟩
  · have writes := fun t => s.whenIdle_idle hi t
    exact ⟨fun v => writes _,
      fun r v => ⟨s.writeReg r v, (hostOp_writeReg_inRange s r v).trans (writes _), fun j => s.readReg_writeReg r j v, rfl⟩,
      fun a v => ⟨s.writeMem a v, (hostOp_writeMem_inRange s a v).trans (writes _), fun b => s.readMem_writeMem a b v, rfl⟩,
      writes _⟩
  · have refuses := fun op => (hostOp_effect op s).refused_of_not_idle hi
    exact ⟨refuses _ rfl, refuses _ rfl, refuses _ rfl, refuses _ rfl⟩

end Sys2Proof.Machine
end

section
/-! PROOFS. The run state: its transitions, the terminal states and the outcome (O33, O34, O36). -/

namespace Sys2Proof.Machine

/-- The run state that a step of a RUNNING core leaves: HALTED at the end of the program and only there, and never IDLE
(spec/10_state.md R31). -/
theorem step_run {s t : State} (hr : s.run = .running) (hs : step s = .next t) :
    t.run ≠ .idle ∧ (t.run = .halted ↔ s.pc = s.len) := by
  have pc_ne : s.pc.toNat ≠ s.len.toNat → s.pc ≠ s.len := fun h e => h (congrArg BitVec.toNat e)
  rcases step_cases hs with ⟨h, _⟩ | ⟨_, e, rfl⟩ | ⟨_, l, rfl⟩ | ⟨_, l, _, rfl⟩ | ⟨_, l, i, _, u, hu, rfl⟩
  · exact absurd hr h
  · exact ⟨nofun, fun _ => BitVec.eq_of_toNat_eq e, fun _ => rfl⟩
  · exact ⟨nofun, nofun, fun e => absurd e (pc_ne l.ne')⟩
  · exact ⟨nofun, nofun, fun e => absurd e (pc_ne l.ne)⟩
  · rcases exec_run hr hu with h | h <;> simp [h, pc_ne l.ne]

/-- Settles O33: the step's part by `step_run`, the host's by `HostEffect.run`. -/
theorem runStateChangesOnlyAsTabled : Obligations.RunStateChangesOnlyAsTabled := by
  refine ⟨fun s t hs => ⟨fun h => ?_, fun h => step_run h hs⟩, fun op s => (hostOp_effect op s).run⟩
  rw [step_notRunning h] at hs; cases hs; rfl

/-- Settles O34: no step and no operation but reset changes the state, and the reads are those of a core that is not
RUNNING. -/
theorem haltedAndFaultedAreTerminal : Obligations.HaltedAndFaultedAreTerminal := by
  intro s h
  have hrun : s.run ≠ .running := by rcases h with h | h <;> simp [h]
  have hidle : s.run ≠ .idle := by rcases h with h | h <;> simp [h]
  obtain ⟨racc, rpc, rlen, rfault, rreg, rmem, _⟩ := hostReads_of_notRunning hrun
  exact ⟨run_notRunning hrun, fun op => (hostOp_effect op s).state_of_not_idle hidle, s.hostReset_run,
    racc, rpc, rlen, rfault, rreg, rmem⟩

theorem State.outcome_halted {s : State} (h : s.run = .halted) : s.outcome = some (.success s.acc) := by
  simp only [State.outcome, h]

theorem State.outcome_faulted {s : State} (h : s.run = .faulted) : s.outcome = some (.failure s.fault) := by
  simp only [State.outcome, h]

/-- Settles O36: the outcome by the run state, and the read of a core that is not RUNNING. -/
theorem outcomeIsTheAccumulatorOrTheFaultRecord : Obligations.OutcomeIsTheAccumulatorOrTheFaultRecord := by
  intro s
  constructor <;> intro h
  · exact ⟨s.outcome_halted h, s.whenNotRunning_reads (by simp [h]) _⟩
  · exact ⟨s.outcome_faulted h, s.whenNotRunning_reads (by simp [h]) _⟩

end Sys2Proof.Machine
end

section
/-! PROOFS. The invariant at reset, under host operations, and in every reachable state (O39, O41, O42, O44). -/

namespace Sys2Proof.Machine

theorem State.readReg_reset (r : Fin Config.numRegs) : State.reset.readReg r = 0 := Vector.getElem_replicate r.isLt

/-- Settles O44: the registers are the replicated 0, no memory word is listed, and the rest is written in the state. -/
theorem powerUpStateIsZeroedAndIdle : Obligations.PowerUpStateIsZeroedAndIdle :=
  ⟨rfl, State.readReg_reset, Memory.read_nil, rfl, rfl, rfl, rfl⟩

/-- Settles O39: an empty memory and program, IDLE at `pc = 0`, and no record. -/
theorem invariantHoldsAtReset : Obligations.InvariantHoldsAtReset where
  memWf := Memory.wf_reset
  lenFits := Nat.zero_le _
  loaded := le_rfl
  pcWithin := le_rfl
  idlePc _ := rfl
  haltedPc := nofun
  noRecord _ := rfl
  record := nofun

/-- The host's reset keeps the program, and leaves nothing else to say. -/
theorem Inv.hostReset {s : State} (h : Inv s) : Inv s.hostReset where
  memWf := rfl
  lenFits := h.lenFits
  loaded := h.loaded
  pcWithin := Nat.zero_le _
  idlePc _ := rfl
  haltedPc := nofun
  noRecord _ := rfl
  record := nofun

/-- A load in IDLE: `N` is the number of words, all of them loaded, and `pc` is 0 there. -/
theorem Inv.loadWords {s : State} {ws : List InstrWord} (h : Inv s) (hi : s.run = .idle)
    (hf : ws.length ≤ Config.imemCapacity) : Inv (s.loadWords ws) := by
  have hlen : (s.loadWords ws).len.toNat = ws.length :=
    PcWord.toNat_ofNat (by have := imemCapacity_le; omega)
  exact {
    memWf := h.memWf
    lenFits := hlen.le.trans hf
    loaded := by rw [hlen, State.loadWords_imem, List.length_append]; exact Nat.le_add_right _ _
    pcWithin := by rw [State.loadWords_pc, h.idlePc hi]; exact Nat.zero_le _
    idlePc := h.idlePc
    haltedPc := by simp [hi]
    noRecord := h.noRecord
    record := by simp [hi] }

/-- A start in IDLE changes the run state alone, and there is no record then. -/
theorem Inv.startRun {s : State} (h : Inv s) (hi : s.run = .idle) : Inv s.startRun where
  memWf := h.memWf
  lenFits := h.lenFits
  loaded := h.loaded
  pcWithin := h.pcWithin
  idlePc := nofun
  haltedPc := nofun
  noRecord _ := h.noRecord (by simp [hi])
  record := nofun

/-- The invariant says nothing of the accumulator. -/
theorem Inv.setAcc {s : State} (h : Inv s) (v : Word) : Inv (s.setAcc v) :=
  ⟨h.memWf, h.lenFits, h.loaded, h.pcWithin, h.idlePc, h.haltedPc, h.noRecord, h.record⟩

/-- The invariant says nothing of the registers. -/
theorem Inv.writeReg {s : State} (h : Inv s) (r : Fin Config.numRegs) (v : Word) : Inv (s.writeReg r v) :=
  ⟨h.memWf, h.lenFits, h.loaded, h.pcWithin, h.idlePc, h.haltedPc, h.noRecord, h.record⟩

/-- A write inside data memory keeps it canonical. -/
theorem Inv.writeMem {s : State} (h : Inv s) (a : Fin Config.memWords) (v : Word) : Inv (s.writeMem a v) :=
  ⟨Memory.wf_write v h.memWf a.isLt, h.lenFits, h.loaded, h.pcWithin, h.idlePc, h.haltedPc, h.noRecord, h.record⟩

theorem HostEffect.inv {s : State} {op : HostOp} {p : State × HostAnswer} (he : HostEffect s op p) (h : Inv s) :
    Inv p.1 := by
  cases he with
  | reset => exact h.hostReset
  | loadProgram hi hf => exact h.loadWords hi hf
  | writeAcc => exact h.setAcc _
  | writeReg => exact h.writeReg _ _
  | writeMem => exact h.writeMem _ _
  | start hi => exact h.startRun hi
  | read | refused => exact h

/-- Settles O41, by the ways in which a host operation can end. -/
theorem everyHostOperationKeepsTheInvariant : Obligations.EveryHostOperationKeepsTheInvariant :=
  fun op s h => (hostOp_effect op s).inv h

/-- The invariant holds wherever power-up, steps and host operations lead. -/
theorem Reachable.inv {s : State} (h : Reachable s) : Inv s := by
  induction h with
  | powerUp => exact invariantHoldsAtReset
  | coreStep _ hs ih => exact everyStepKeepsTheInvariant _ _ ih hs
  | hostAct op _ ih => exact everyHostOperationKeepsTheInvariant op _ ih

/-- Settles O42: two fields of the invariant, and the bound of the capacity. -/
theorem reachableStatesHavePcWithinTheProgram : Obligations.ReachableStatesHavePcWithinTheProgram :=
  fun _ h => ⟨h.inv.pcWithin, h.inv.lenFits, imemCapacity_le⟩

end Sys2Proof.Machine
end

section
/-! PROOFS. Which instruction reaches data memory, and a word over a run of steps (O30, O31). -/

namespace Sys2Proof.Machine

/-! ### The instructions -/

/-- The record of a fault holds nothing of data memory. -/
theorem State.raise_withMem (s : State) (c : FaultCause) (m : Memory) :
    State.raise { s with mem := m } c = { s.raise c with mem := m } := by
  cases c <;> rfl

/-- An instruction with no address operand carries any data memory along. -/
theorem Executes.withMem_of_no_addrOperand {s t : State} {i : Instr} (m : Memory)
    (h : Executes s i t) (ho : i.addrOperand = none) : Executes { s with mem := m } i { t with mem := m } := by
  cases h with
  | m2rLoad | m2aLoad | a2mStore | r2mStore => cases ho
  | faults h => exact State.raise_withMem s _ m ▸ .faults h
  | noop => exact .noop
  | load => exact .load
  | r2aLoad h => exact .r2aLoad h
  | a2rStore h => exact .a2rStore h
  | iAdd => exact .iAdd
  | jump h => exact .jump h
  | jumpNegTaken h hn => exact .jumpNegTaken h hn
  | jumpNegUntaken h hn => exact .jumpNegUntaken h hn

/-- What an instruction leaves in data memory: the memory as it was, or, where it stores and its operand names address
`k`, the memory with a word written at `k` (spec/20_memory.md R53, R55). -/
theorem Executes.mem_cases {s t : State} {i : Instr} (h : Executes s i t) :
    t.mem = s.mem ∨ ∃ x k v, i.storeAddr = some x ∧ dataAddress x = some k ∧ t.mem = s.mem.write k v := by
  cases h with
  | a2mStore ha | r2mStore ha => exact .inr ⟨_, _, _, rfl, ha, rfl⟩
  | faults | noop | load | r2aLoad | m2rLoad | m2aLoad | a2rStore | iAdd | jump | jumpNegTaken | jumpNegUntaken =>
    exact .inl rfl

/-- Without a store to a valid address, data memory is as it was. -/
theorem Executes.mem_of_no_valid_store {s t : State} {i : Instr} (h : Executes s i t)
    (hn : ∀ x, i.storeAddr = some x → dataAddress x = none) : t.mem = s.mem := by
  rcases h.mem_cases with h | ⟨x, k, _, hx, hk, _⟩
  · exact h
  · rw [hn x hx] at hk; cases hk

/-- A word that the instruction does not name as its store's address reads as before (spec/20_memory.md R60). -/
theorem Executes.readMem_of_not_stored {s t : State} {i : Instr} {a : Nat} (h : Executes s i t)
    (hn : ∀ x, i.storeAddr = some x → x.toInt ≠ (a : Int)) : t.readMem a = s.readMem a := by
  rcases h.mem_cases with h | ⟨x, k, v, hx, hk, h⟩
  · rw [State.readMem, h, State.readMem]
  · have hak : a ≠ k.val := fun e => hn x hx (by rw [e]; exact dataAddress_eq_some.mp hk)
    rw [State.readMem, h, Memory.read_write, if_neg hak, State.readMem]

/-- Settles O30: data memory is not read without an address operand, and what is written is at a valid store address. -/
theorem dataMemoryReachedOnlyByItsInstructions : Obligations.DataMemoryReachedOnlyByItsInstructions := by
  refine ⟨fun i s t m ho he => exec_eq_next_iff.mpr ((exec_eq_next_iff.mp he).withMem_of_no_addrOperand m ho),
    fun i s t hw he => (exec_eq_next_iff.mp he).mem_of_no_valid_store (by simp [hw]), fun i s t a hw he => ?_⟩
  have names_a : ∀ x, i.storeAddr = some x → x = a := fun x hx => Option.some.inj (hx.symm.trans hw)
  constructor
  · exact fun hn => (exec_eq_next_iff.mp he).mem_of_no_valid_store fun x hx => names_a x hx ▸ hn
  · intro k hk b hb
    refine (exec_eq_next_iff.mp he).readMem_of_not_stored fun x hx => ?_
    rw [names_a x hx, dataAddress_eq_some.mp hk]
    exact fun e => hb (Int.ofNat.inj e).symm

/-! ### Runs -/

/-- The next step of the core executes no store whose operand names address `a`. -/
def State.NextStepSpares (s : State) (a : Nat) : Prop :=
  ∀ i x, s.run = .running → s.pc.toNat < s.len.toNat → decode (s.imemWord s.pc.toNat) = .instr i →
    i.storeAddr = some x → x.toInt ≠ (a : Int)

/-- A step that executes no store to `a`, be it a halt or a fault, leaves the word there. -/
theorem State.NextStepSpares.readMem {s t : State} {a : Nat} (h : s.NextStepSpares a) (hs : step s = .next t) :
    t.readMem a = s.readMem a := by
  rcases step_cases hs with ⟨_, rfl⟩ | ⟨_, _, rfl⟩ | ⟨_, _, rfl⟩ | ⟨_, _, _, rfl⟩ | ⟨hr, hl, i, hd, u, hu, rfl⟩
  case inr.inr.inr.inr =>
    have hword : u.readMem a = s.readMem a :=
      (exec_eq_next_iff.mp hu).readMem_of_not_stored fun x hx => h i x hr hl hd hx
    simpa only [State.readMem, State.emitRetire_mem] using hword
  all_goals rfl

/-- What a step keeps wherever `Q` holds before it, a run keeps if `Q` holds before each of its steps. -/
theorem run_keeps_while {P Q : State → Prop} (hP : ∀ s t, Q s → P s → step s = .next t → P t) {k : Nat} {s t : State}
    (hr : Host.Core.run Sys2Proof.core k s = .next t)
    (hQ : ∀ j u, j < k → Host.Core.run Sys2Proof.core j s = .next u → Q u) (h : P s) : P t := by
  induction k generalizing s with
  | zero => cases hr; exact h
  | succ k ih =>
    obtain ⟨u, hu⟩ := step_next s
    have hPu : P u := hP s u (hQ 0 s k.succ_pos (run_zero s)) h hu
    rw [run_succ k hu] at hr
    exact ih hr (fun j v hj hv => hQ (j + 1) v (Nat.succ_lt_succ hj) ((run_succ j hu).trans hv)) hPu

/-- Settles O31: a step that spares the word keeps what it read at the start, and so does the run. -/
theorem memoryWordKeepsItsValueUntilAStoreNamesIt : Obligations.MemoryWordKeepsItsValueUntilAStoreNamesIt := by
  intro k s t a hr hspare
  have hstep : ∀ u v : State, u.NextStepSpares a → u.readMem a = s.readMem a → step u = .next v →
      v.readMem a = s.readMem a := fun u v hu hword hs => (hu.readMem hs).trans hword
  exact run_keeps_while hstep hr (fun j u hj hu i x => hspare j u i x hj hu) rfl

end Sys2Proof.Machine
end

section
/-! SUPPORT. Everything the decoder can answer, said once, and that it and the encoder are inverse. -/

namespace Sys2Proof

/-- The opcodes of format A1, whose instructions have one operand (spec/30_encoding.md R72). -/
def opcodesA1 : List Nat := [0x01, 0x02, 0x04, 0x05, 0x06, 0x08, 0x09, 0x0A]

/-- What the fields of a word can decode to: the instruction whose word they are, or illegal, with the rule's reason
(spec/30_encoding.md R75, R77). -/
inductive DecodesTo (op : BitVec 8) (a b : Word) : Decoded → Prop
  | instr {i : Instr} (he : encode i = packWord op a b) : DecodesTo op a b (.instr i)
  | noOpcode (ho : 0x0B ≤ op.toNat) : DecodesTo op a b (.illegal .opcode)
  | unusedA (ho : op.toNat = 0x00) (ha : a ≠ 0) : DecodesTo op a b (.illegal .fieldA)
  | unusedB (ho : op.toNat = 0x00 ∨ op.toNat ∈ opcodesA1) (hb : b ≠ 0) : DecodesTo op a b (.illegal .fieldB)

/-- The instruction whose word has field `B` 0, in a format that requires it. -/
theorem decodesTo_requireNoB {op : BitVec 8} {a b : Word} {i : Instr} (ho : op.toNat = 0x00 ∨ op.toNat ∈ opcodesA1)
    (he : encode i = packWord op a 0) : DecodesTo op a b (requireNoB b (.instr i)) := by
  unfold requireNoB
  split
  · subst b; exact .instr he
  · exact .unusedB ho ‹_›

/-- NOOP, in the format that requires both operand fields to be 0. -/
theorem decodesTo_requireNoAB {op : BitVec 8} {a b : Word} (ho : op.toNat = 0x00) (he : encode .noop = packWord op 0 0) :
    DecodesTo op a b (requireNoAB a b (.instr .noop)) := by
  unfold requireNoAB
  split
  · subst a; exact decodesTo_requireNoB (.inl ho) he
  · exact .unusedA ho ‹_›

/-- An instruction's word, its opcode named by its number. -/
theorem encode_eq_packWord {i : Instr} {op op' : BitVec 8} {a b : Word} (he : encode i = packWord op' a b)
    (ho : op.toNat = op'.toNat) : encode i = packWord op a b := by
  rw [he, BitVec.eq_of_toNat_eq ho]

/-- The decoder's cases, each opcode by its format (spec/30_encoding.md R72, R75). -/
theorem decodeFields_decodesTo (op : BitVec 8) (a b : Word) : DecodesTo op a b (decodeFields op a b) := by
  unfold decodeFields
  split
  case h_1 ho => exact decodesTo_requireNoAB ho (encode_eq_packWord rfl ho)
  case h_4 ho => exact .instr (encode_eq_packWord rfl ho)
  case h_8 ho => exact .instr (encode_eq_packWord rfl ho)
  case h_12 => exact .noOpcode (by simp only [imp_false] at *; omega)
  all_goals
    rename_i ho
    exact decodesTo_requireNoB (.inr (by simp [ho, opcodesA1])) (encode_eq_packWord rfl ho)

/-- The words that R77 calls illegal, by their fields. -/
def IllegalFields (op : BitVec 8) (a b : Word) : Prop :=
  0x0B ≤ op.toNat ∨ op.toNat = 0x00 ∧ (a ≠ 0 ∨ b ≠ 0) ∨ op.toNat ∈ opcodesA1 ∧ b ≠ 0

/-- The word of an instruction is none of them. -/
theorem not_illegalFields_of_encode {i : Instr} {op : BitVec 8} {a b : Word} (he : encode i = packWord op a b) :
    ¬ IllegalFields op a b := by
  cases i <;> (obtain ⟨rfl, rfl, rfl⟩ := packWord_inj he; simp [IllegalFields, opcodesA1])

/-- The decoder refuses the fields that R77 names, and no others. -/
theorem decodeFields_illegal_iff {op : BitVec 8} {a b : Word} :
    (∃ why, decodeFields op a b = .illegal why) ↔ IllegalFields op a b := by
  have h := decodeFields_decodesTo op a b
  generalize decodeFields op a b = d at h
  cases h with
  | instr he => exact ⟨nofun, fun hf => absurd hf (not_illegalFields_of_encode he)⟩
  | noOpcode ho => exact ⟨fun _ => .inl ho, fun _ => ⟨_, rfl⟩⟩
  | unusedA ho ha => exact ⟨fun _ => .inr (.inl ⟨ho, .inl ha⟩), fun _ => ⟨_, rfl⟩⟩
  | unusedB ho hb => exact ⟨fun _ => .inr (ho.imp (⟨·, .inr hb⟩) (⟨·, hb⟩)), fun _ => ⟨_, rfl⟩⟩

/-- What a word can decode to. -/
theorem decode_decodesTo (w : InstrWord) : DecodesTo (opField w) (fieldA w) (fieldB w) (decode w) :=
  decodeFields_decodesTo _ _ _

/-- A word that decodes to an instruction is that instruction's word. -/
theorem encode_of_decode {w : InstrWord} {i : Instr} (hd : decode w = .instr i) : encode i = w := by
  have h := decode_decodesTo w
  rw [hd] at h
  cases h with
  | instr he => exact he.trans (packWord_fields w)

@[simp] theorem decode_encode (i : Instr) : decode (encode i) = .instr i := by
  cases i with
  | noop => exact (decode_packWord _ _ _).trans (requireNoAB_eq_instr.mpr ⟨rfl, rfl, rfl⟩)
  | m2rLoad | r2mStore => exact decode_packWord _ _ _
  | load | r2aLoad | m2aLoad | a2rStore | a2mStore | iAdd | jump | jumpNeg =>
    exact (decode_packWord _ _ _).trans (requireNoB_eq_instr.mpr ⟨rfl, rfl⟩)

theorem decode_eq_instr_iff {w : InstrWord} {i : Instr} : decode w = .instr i ↔ encode i = w :=
  ⟨encode_of_decode, by rintro rfl; exact decode_encode i⟩

end Sys2Proof
end

section
/-! PROOFS. The decoder and the encoder are inverse, and the words the spec writes out (O1, O3). -/

namespace Sys2Proof

/-- Settles O3: the clauses of R76 are the encoder's own, and the inverse is `decode_encode` and `encode_of_decode`. -/
theorem decodeAndEncodeAreInverse : Obligations.DecodeAndEncodeAreInverse :=
  ⟨fun _ _ _ => ⟨rfl, rfl, rfl, rfl, rfl, rfl, rfl, rfl, rfl, rfl, rfl⟩, decode_encode, fun _ _ => encode_of_decode⟩

/-- Settles O1: each word of R79 is the encoding of the instruction beside it. -/
theorem wordsOfTheSpecDecodeAsItWritesThem : Obligations.WordsOfTheSpecDecodeAsItWritesThem := by
  unfold Obligations.WordsOfTheSpecDecodeAsItWritesThem
  simp only [decode_eq_instr_iff]
  exact ⟨rfl, rfl, rfl, rfl, rfl, rfl, rfl, rfl, rfl, rfl, rfl, rfl⟩

end Sys2Proof
end

section
/-! PROOFS. The decoder's cases, opcode by opcode (O2). -/

namespace Sys2Proof

/-- A word written as the join of its fields decodes by them. -/
theorem decode_append (op : BitVec 8) (a b : Word) : decode (op ++ a ++ b) = decodeFields op a b := decode_packWord op a b

theorem requireNoB_instr? (b : Word) (i : Instr) :
    (requireNoB b (.instr i)).instr? = if b = 0 then some i else none := by
  unfold requireNoB; split <;> rfl

theorem requireNoAB_instr? (a b : Word) (i : Instr) :
    (requireNoAB a b (.instr i)).instr? = if a = 0 ∧ b = 0 then some i else none := by
  unfold requireNoAB
  split
  · rw [requireNoB_instr?]; simp_all
  · simp_all [Decoded.instr?]

/-- Format Z (spec/30_encoding.md R72): the fields of opcode `op` ask for both operand fields to be 0. -/
theorem decode_append_formatZ {op : BitVec 8} {a b : Word} {i : Instr}
    (h : decodeFields op a b = requireNoAB a b (.instr i)) :
    (decode (op ++ a ++ b)).instr? = if a = 0 ∧ b = 0 then some i else none := by
  rw [decode_append, h, requireNoAB_instr?]

/-- Format A1 (spec/30_encoding.md R72): the fields of opcode `op` ask for field `B` to be 0. -/
theorem decode_append_formatA1 {op : BitVec 8} {a b : Word} {i : Instr}
    (h : decodeFields op a b = requireNoB b (.instr i)) :
    (decode (op ++ a ++ b)).instr? = if b = 0 then some i else none := by
  rw [decode_append, h, requireNoB_instr?]

/-- Format AB (spec/30_encoding.md R72): the fields of opcode `op` ask for nothing. -/
theorem decode_append_formatAB {op : BitVec 8} {a b : Word} {i : Instr} (h : decodeFields op a b = .instr i) :
    (decode (op ++ a ++ b)).instr? = some i := by
  rw [decode_append, h, Decoded.instr?]

theorem decode_append_noOpcode {op : BitVec 8} (a b : Word) (ho : 0x0B ≤ op.toNat) :
    (decode (op ++ a ++ b)).instr? = none := by
  obtain ⟨why, hd⟩ := decodeFields_illegal_iff.mpr (.inl ho : IllegalFields op a b)
  rw [decode_append, hd, Decoded.instr?]

/-- Settles O2: the case of each opcode by its format. -/
theorem decodeFollowsTheCaseList : Obligations.DecodeFollowsTheCaseList :=
  ⟨fun _ _ => ⟨decode_append_formatZ rfl, decode_append_formatA1 rfl, decode_append_formatA1 rfl,
    decode_append_formatAB rfl, decode_append_formatA1 rfl, decode_append_formatA1 rfl, decode_append_formatA1 rfl,
    decode_append_formatAB rfl, decode_append_formatA1 rfl, decode_append_formatA1 rfl, decode_append_formatA1 rfl⟩,
   fun _ => decode_append_noOpcode⟩

end Sys2Proof
end

section
/-! PROOFS. The opcode map by mask and match (O4). -/

namespace Sys2Proof

/-! ### What a mask keeps -/

/-- Masking a word masks each of its fields. -/
theorem and_packWord (w : InstrWord) (op : BitVec 8) (a b : Word) :
    w &&& packWord op a b = packWord (opField w &&& op) (fieldA w &&& a) (fieldB w &&& b) := by
  conv_lhs => rw [← packWord_fields w]
  exact packWord_and ..

/-- A mask that keeps OP, and the match of opcode `op`. -/
theorem and_mask_eq_match_iff {w : InstrWord} {op : BitVec 8} {a b : Word} :
    w &&& packWord 0xFF a b = packWord op 0 0 ↔ opField w = op ∧ fieldA w &&& a = 0 ∧ fieldB w &&& b = 0 := by
  have hop : opField w &&& 0xFF = opField w := BitVec.and_allOnes
  rw [and_packWord, hop]
  exact ⟨packWord_inj, by rintro ⟨h, ha, hb⟩; rw [h, ha, hb]⟩

/-- A word's fields are those of an instruction's word exactly when the word decodes to the instruction. -/
theorem decode_eq_instr_iff_fields {w : InstrWord} {i : Instr} {op : BitVec 8} {a b : Word}
    (he : encode i = packWord op a b) : decode w = .instr i ↔ opField w = op ∧ fieldA w = a ∧ fieldB w = b := by
  rw [decode_eq_instr_iff, he]
  constructor
  · rintro rfl; simp only [opField_packWord, fieldA_packWord, fieldB_packWord, and_self]
  · rintro ⟨rfl, rfl, rfl⟩; exact packWord_fields w

/-! ### The rows, by format: the word of the row's instruction, and the row's match (spec/30_encoding.md R72, R74) -/

theorem maskZ_iff_decode {w pattern : InstrWord} {i : Instr} {op : BitVec 8} (he : encode i = packWord op 0 0)
    (hp : pattern = packWord op 0 0) : w &&& 0xFF_FFFFFFFF_FFFFFFFF#72 = pattern ↔ decode w = .instr i := by
  have mask : 0xFF_FFFFFFFF_FFFFFFFF#72 = packWord 0xFF 0xFFFFFFFF 0xFFFFFFFF := rfl
  have keeps : ∀ v : Word, v &&& 0xFFFFFFFF = v := fun _ => BitVec.and_allOnes
  rw [hp, mask, and_mask_eq_match_iff, decode_eq_instr_iff_fields he, keeps, keeps]

theorem maskA1_iff_decode {w pattern : InstrWord} {i : Instr} {op : BitVec 8} (he : encode i = packWord op (fieldA w) 0)
    (hp : pattern = packWord op 0 0) : w &&& 0xFF_00000000_FFFFFFFF#72 = pattern ↔ decode w = .instr i := by
  have mask : 0xFF_00000000_FFFFFFFF#72 = packWord 0xFF 0 0xFFFFFFFF := rfl
  have keeps : fieldB w &&& 0xFFFFFFFF = fieldB w := BitVec.and_allOnes
  rw [hp, mask, and_mask_eq_match_iff, decode_eq_instr_iff_fields he, keeps]
  simp

theorem maskAB_iff_decode {w pattern : InstrWord} {i : Instr} {op : BitVec 8}
    (he : encode i = packWord op (fieldA w) (fieldB w)) (hp : pattern = packWord op 0 0) :
    w &&& 0xFF_00000000_00000000#72 = pattern ↔ decode w = .instr i := by
  have mask : 0xFF_00000000_00000000#72 = packWord 0xFF 0 0 := rfl
  rw [hp, mask, and_mask_eq_match_iff, decode_eq_instr_iff_fields he]
  simp

/-! ### No two rows accept one word -/

theorem opField_mask : ∀ row ∈ opcodeTable, opField row.mask = 0xFF := by decide

theorem opField_pattern_inj :
    ∀ r₁ ∈ opcodeTable, ∀ r₂ ∈ opcodeTable, opField r₁.pattern = opField r₂.pattern → r₁ = r₂ := by decide

/-- A row accepts words of its own opcode only, since every mask keeps OP whole. -/
theorem OpcodeRow.opField_of_accepts {row : OpcodeRow} {w : InstrWord} (hrow : row ∈ opcodeTable)
    (h : row.accepts w = true) : opField w = opField row.pattern := by
  have hand : w &&& row.mask = row.pattern := beq_iff_eq.mp h
  calc opField w = opField w &&& opField row.mask := by rw [opField_mask row hrow]; exact BitVec.and_allOnes.symm
    _ = opField (w &&& row.mask) := BitVec.extractLsb'_and.symm
    _ = opField row.pattern := by rw [hand]

/-- Settles O4: each row by its format, and two rows that accept one word by its opcode. -/
theorem maskAndMatchDecideWhatAWordEncodes : Obligations.MaskAndMatchDecideWhatAWordEncodes :=
  ⟨fun _ => ⟨maskZ_iff_decode rfl rfl, maskA1_iff_decode rfl rfl, maskA1_iff_decode rfl rfl,
    maskAB_iff_decode rfl rfl, maskA1_iff_decode rfl rfl, maskA1_iff_decode rfl rfl,
    maskA1_iff_decode rfl rfl, maskAB_iff_decode rfl rfl, maskA1_iff_decode rfl rfl,
    maskA1_iff_decode rfl rfl, maskA1_iff_decode rfl rfl⟩,
   fun _ r₁ h₁ r₂ h₂ ha₁ ha₂ => opField_pattern_inj r₁ h₁ r₂ h₂
    ((OpcodeRow.opField_of_accepts h₁ ha₁).symm.trans (OpcodeRow.opField_of_accepts h₂ ha₂))⟩

end Sys2Proof
end

section
/-! PROOFS. The illegal words, and the fault that fetching one raises (O5). -/

namespace Sys2Proof.Machine

/-- Fetching an illegal word is the fault of R205, with the word in the record. -/
theorem step_illegal {s : State} {why : Illegal} (hr : s.run = .running) (hl : s.pc.toNat < s.len.toNat)
    (hd : decode (s.imemWord s.pc.toNat) = .illegal why) :
    step s = .next (s.raise (.illegalInstruction (s.imemWord s.pc.toNat))) := by
  simp only [step, State.fetch_illegal hr hl hd]

/-- Settles O5: the illegal words by their fields, the others by `encode_of_decode`, and the fault by `step_illegal`. -/
theorem illegalWordsAreThoseNamedAndFaultWhenFetched : Obligations.IllegalWordsAreThoseNamedAndFaultWhenFetched := by
  refine ⟨fun w => decodeFields_illegal_iff, fun w hlegal => ?_, fun s why => step_illegal⟩
  cases hd : decode w with
  | instr i => exact ⟨i, (encode_of_decode hd).symm⟩
  | illegal why => exact absurd hd (hlegal why)

end Sys2Proof.Machine
end

section
/-! PROOFS. The assembler: the words of a program's lines (O50, O51). -/

namespace Sys2Proof.Asm

/-- The word `w` is the encoding of the instruction that the line parses to (spec/30_encoding.md R80). -/
def AssemblesTo (line : List Char) (w : InstrWord) : Prop := ∃ i, parseLine line = .instr i ∧ encode i = w

theorem assemble_cons_eq_some {line : List Char} {lines : List (List Char)} {ws : List InstrWord} :
    assemble (line :: lines) = some ws ↔ ∃ w vs, AssemblesTo line w ∧ assemble lines = some vs ∧ w :: vs = ws := by
  simp only [assemble, AssemblesTo]
  cases parseLine line <;> cases assemble lines <;> simp

/-- The assembler goes line by line: it answers words exactly when each line has its word, in order. -/
theorem assemble_eq_some_iff {lines : List (List Char)} {ws : List InstrWord} :
    assemble lines = some ws ↔ List.Forall₂ AssemblesTo lines ws := by
  induction lines generalizing ws with
  | nil => simp [assemble, eq_comm]
  | cons line lines ih =>
    simp only [assemble_cons_eq_some, List.forall₂_cons_left_iff, ih, eq_comm (a := ws)]

/-- Accepted lines have their words. -/
theorem exists_assemble {lines : List (List Char)} (h : ∀ line ∈ lines, ∃ i, parseLine line = .instr i) :
    ∃ ws, assemble lines = some ws := by
  induction lines with
  | nil => exact ⟨[], rfl⟩
  | cons line lines ih =>
    obtain ⟨hline, hlines⟩ := List.forall_mem_cons.mp h
    obtain ⟨i, hi⟩ := hline
    obtain ⟨ws, hws⟩ := ih hlines
    exact ⟨encode i :: ws, assemble_cons_eq_some.mpr ⟨_, _, ⟨i, hi, rfl⟩, hws, rfl⟩⟩

/-- The word of line `k` stands at index `k` (spec/30_encoding.md R80). -/
theorem getElem?_of_assemble {lines : List (List Char)} {ws : List InstrWord} (h : assemble lines = some ws) {k : Nat}
    {line : List Char} (hk : lines[k]? = some line) : ∃ i, parseLine line = .instr i ∧ ws[k]? = some (encode i) := by
  obtain ⟨hlen, hget⟩ := List.forall₂_iff_get.mp (assemble_eq_some_iff.mp h)
  obtain ⟨hlt, rfl⟩ := List.getElem?_eq_some_iff.mp hk
  obtain ⟨i, hi, hw⟩ := hget k hlt (hlen ▸ hlt)
  exact ⟨i, hi, List.getElem?_eq_some_iff.mpr ⟨hlen ▸ hlt, hw.symm⟩⟩

/-- Settles O51: the lines and their words are paired in order, so a rejected line, which has no word, leaves none. -/
theorem assemblyKeepsLineOrderAndGivesLegalWords : Obligations.AssemblyKeepsLineOrderAndGivesLegalWords := by
  refine ⟨fun _ => exists_assemble, fun lines ws h => ⟨(assemble_eq_some_iff.mp h).length_eq.symm,
    fun k line => getElem?_of_assemble h⟩, fun lines line why hmem herr => ?_⟩
  cases h : assemble lines with
  | none => rfl
  | some ws =>
    obtain ⟨k, hk⟩ := List.getElem?_of_mem hmem
    obtain ⟨i, hi, _⟩ := getElem?_of_assemble h hk
    rw [herr] at hi; cases hi

/-- Settles O50: the instruction of each line, and its word. -/
theorem assembledExampleLinesGiveTheirWords : Obligations.AssembledExampleLinesGiveTheirWords := by
  have hload : parseLine "M2R_LOAD 1 R2".toList = .instr (.m2rLoad 1 2) := by decide
  have hstore : parseLine "R2M_STORE R3 200".toList = .instr (.r2mStore 3 200) := by decide
  exact assemble_eq_some_iff.mpr (.cons ⟨_, hload, rfl⟩ (.cons ⟨_, hstore, rfl⟩ .nil))

end Sys2Proof.Asm
end

section
/-! PROOFS. The step, one rule for each way to end; what it runs, what it keeps, what a fault leaves (O6, O7, O10, O12,
O13). -/

namespace Sys2Proof.Machine

/-! ### The step, by what it fetches -/

/-- The clean halt (spec/40_execution_cycle.md R102). -/
theorem step_atEnd {s : State} (hr : s.run = .running) (he : s.pc.toNat = s.len.toNat) : step s = .next s.halt := by
  simp only [step, State.fetch_atEnd hr he]

/-- The step that executes an instruction, and what it retires (spec/40_execution_cycle.md R101, R105). -/
theorem step_instr {s t : State} {i : Instr} (hr : s.run = .running) (hl : s.pc.toNat < s.len.toNat)
    (hd : decode (s.imemWord s.pc.toNat) = .instr i) (hx : exec i s = .next t) :
    step s = .next (s.emitRetire (s.imemWord s.pc.toNat) t) := by
  simp only [step, State.fetch_instr hr hl hd, hx, State.retire_next]

@[simp] theorem State.emitRetire_raise (b s : State) (w : InstrWord) (c : FaultCause) :
    b.emitRetire w (s.raise c) = s.raise c := State.emitRetire_stopped (by simp) w

/-- The step whose instruction fails a check is that check's fault, and nothing is retired. -/
theorem step_of_failsCheck {s : State} {i : Instr} {c : FaultCause} (hr : s.run = .running)
    (hl : s.pc.toNat < s.len.toNat) (hd : decode (s.imemWord s.pc.toNat) = .instr i) (hc : FailsCheck s.len i c) :
    step s = .next (s.raise c) := by
  rw [step_instr hr hl hd (exec_of_failsCheck hc), State.emitRetire_raise]

/-- A step that leaves a RUNNING core FAULTED is a fault entry and nothing else. -/
theorem step_raises {s t : State} (hr : s.run = .running) (hs : step s = .next t) (hf : t.run = .faulted) :
    ∃ c, t = s.raise c := by
  rcases step_cases hs with ⟨h, _⟩ | ⟨_, _, rfl⟩ | ⟨_, _, rfl⟩ | ⟨_, _, _, rfl⟩ | ⟨_, _, i, _, u, hu, rfl⟩
  · exact absurd hr h
  · cases hf
  · exact ⟨_, rfl⟩
  · exact ⟨_, rfl⟩
  · rcases exec_cases i s with ⟨c, e, _⟩ | ⟨v, e, _, hc⟩ <;> rw [hu] at e <;> cases e
    · exact ⟨c, State.emitRetire_raise s s _ c⟩
    · rw [State.emitRetire_run, hc.run, hr] at hf; cases hf

/-! ### The obligations -/

/-- Settles O10: the step is a fault entry, which writes two fields. -/
theorem faultingStepChangesOnlyRunAndRecord : Obligations.FaultingStepChangesOnlyRunAndRecord := by
  intro s t hr hs hf
  obtain ⟨c, rfl⟩ := step_raises hr hs hf
  exact ⟨rfl, fun _ => rfl, fun _ => rfl, rfl, rfl, fun _ => rfl, rfl⟩

/-- Settles O12, by `step_program`. -/
theorem noStepChangesTheProgram : Obligations.NoStepChangesTheProgram := by
  intro s t _ hs
  obtain ⟨hlen, himem⟩ := step_program hs
  exact ⟨hlen, himem, fun k => by simp only [State.imemWord, himem]⟩

/-- Settles O6: every instruction answers a state, and the step retires it. -/
theorem stepRunsTheDecodedInstruction : Obligations.StepRunsTheDecodedInstruction := by
  intro s i hr hl hd
  obtain ⟨t, ht⟩ := exec_next i s
  exact ⟨t, ht, step_instr hr hl hd ht⟩

/-- Settles O7: the clean halt, and the state that the host's start leaves when `N = 0`. -/
theorem stepAtTheEndHaltsCleanly : Obligations.StepAtTheEndHaltsCleanly := by
  refine ⟨fun s hr he => ⟨step_atEnd hr he, State.outcome_halted rfl⟩, fun s hi hp hn => ?_⟩
  have hstart : (hostOp .start s).1 = s.startRun := congrArg Prod.fst (State.whenIdle_idle hi s.startRun)
  have hend : s.startRun.pc.toNat = s.startRun.len.toNat := by rw [State.startRun_pc, State.startRun_len, hp, hn]
  rw [hstart, step_atEnd s.startRun_run hend]
  rfl

/-- Settles O13, by `step_next`. -/
theorem everyStepAnswersANextState : Obligations.EveryStepAnswersANextState := step_next

end Sys2Proof.Machine
end

section
/-! PROOFS. The order of the checks (O9). -/

namespace Sys2Proof.Machine

/-- An instruction that no check stops leaves the run state. -/
theorem Executes.run_of_no_failsCheck {s t : State} {i : Instr} (h : Executes s i t)
    (hn : ∀ c, ¬ FailsCheck s.len i c) : t.run = s.run := by
  cases h with
  | faults hc => exact absurd hc (hn _)
  | noop | load | r2aLoad | m2rLoad | m2aLoad | a2rStore | a2mStore | r2mStore | iAdd | jump | jumpNegTaken
  | jumpNegUntaken => rfl

/-- No check fails when every operand is in its range. -/
theorem not_failsCheck {n : PcWord} {i : Instr} (ha : ∀ a, i.addrOperand = some a → 0 ≤ a.toInt ∧ a.toInt < 1024)
    (hr : ∀ r, i.regOperand = some r → 0 ≤ r.toInt ∧ r.toInt < 4)
    (ht : ∀ x, i.tgtOperand = some x → 0 ≤ x.toInt ∧ x.toInt < n.toNat) (c : FaultCause) : ¬ FailsCheck n i c := by
  intro h
  cases h with
  | address ho hc => exact dataAddress_eq_none.mp hc (ha _ ho)
  | register ho hc => exact regIndex_eq_none.mp hc (hr _ ho)
  | target ho hc => exact jumpTarget_eq_none.mp hc (ht _ ho)

/-- Settles O9: the halt, the fetch bound and decode by `step_cases`, and the operand checks by `FailsCheck`. -/
theorem firstFailingCheckIsTheOneReported : Obligations.FirstFailingCheckIsTheOneReported := by
  intro s hr
  obtain ⟨t, hs⟩ := step_next s
  refine ⟨t, hs, ?_⟩
  rcases step_cases hs with ⟨h, _⟩ | ⟨_, e, rfl⟩ | ⟨_, l, rfl⟩ | ⟨_, l, ⟨why, hd⟩, rfl⟩ | ⟨_, l, i, hd, u, hu, rfl⟩
  · exact absurd hr h
  · rw [if_pos e]; rfl
  · rw [if_neg l.ne', if_pos l]; exact ⟨rfl, rfl⟩
  · rw [if_neg l.ne, if_neg l.not_gt, hd]; exact ⟨rfl, rfl⟩
  · rw [if_neg l.ne, if_neg l.not_gt, hd]
    have raises : ∀ {c}, FailsCheck s.len i c → s.emitRetire (s.imemWord s.pc.toNat) u = s.raise c := fun hc =>
      Host.Outcome.next.inj (hs.symm.trans (step_of_failsCheck hr l hd hc))
    refine ⟨fun a ho hbad => ?_, fun r ho haddr hbad => ?_, fun x ho hbad => ?_, fun haddr hreg htgt => ?_⟩
    · rw [raises (.address ho (dataAddress_eq_none.mpr hbad))]; exact ⟨rfl, rfl⟩
    · rw [raises (.register ho (regIndex_eq_none.mpr hbad) fun a ha hn => dataAddress_eq_none.mp hn (haddr a ha))]
      exact ⟨rfl, rfl⟩
    · rw [raises (.target ho (jumpTarget_eq_none.mpr hbad))]; exact ⟨rfl, rfl⟩
    · rw [State.emitRetire_run, (exec_eq_next_iff.mp hu).run_of_no_failsCheck (not_failsCheck haddr hreg htgt), hr]

end Sys2Proof.Machine
end

section
/-! PROOFS. Where a successful step leaves `pc`, and what it retires (O11). -/

namespace Sys2Proof.Machine

/-- No instruction retires anything itself. -/
theorem Executes.retired {s t : State} {i : Instr} (h : Executes s i t) : t.retired = s.retired := by
  cases h <;> rfl

/-- The update policy of spec/40_execution_cycle.md R106: a fault, a jump that jumps, or an increment. -/
theorem Executes.pc_cases {s t : State} {i : Instr} (h : Executes s i t) :
    t.run = .faulted ∨ i = .jump t.pc ∨ (i = .jumpNeg t.pc ∧ s.acc.toInt < 0) ∨
    (t.pc = s.pc + 1 ∧ (∀ x, i ≠ .jump x) ∧ ∀ x, i = .jumpNeg x → ¬ s.acc.toInt < 0) := by
  cases h with
  | faults => exact .inl rfl
  | jump hx => obtain ⟨_, rfl⟩ := jumpTarget_eq_some.mp hx; exact .inr (.inl rfl)
  | jumpNegTaken hx hn =>
    obtain ⟨_, rfl⟩ := jumpTarget_eq_some.mp hx
    exact .inr (.inr (.inl ⟨rfl, of_decide_eq_true hn⟩))
  | jumpNegUntaken _ hn => exact .inr (.inr (.inr ⟨rfl, nofun, fun _ _ => of_decide_eq_false hn⟩))
  | noop | load | r2aLoad | m2rLoad | m2aLoad | a2rStore | a2mStore | r2mStore | iAdd =>
    exact .inr (.inr (.inr ⟨rfl, nofun, nofun⟩))

/-- A step that leaves a RUNNING core RUNNING executed an instruction and retired it. -/
theorem step_running {s t : State} (hr : s.run = .running) (hs : step s = .next t) (ht : t.run = .running) :
    s.pc.toNat < s.len.toNat ∧ ∃ i u, decode (s.imemWord s.pc.toNat) = .instr i ∧ Executes s i u ∧ u.run = .running ∧
      t = { u with retired := s.retired ++ [⟨s.pc, s.imemWord s.pc.toNat, u.acc⟩] } := by
  rcases step_cases hs with ⟨h, _⟩ | ⟨_, _, rfl⟩ | ⟨_, _, rfl⟩ | ⟨_, _, _, rfl⟩ | ⟨_, l, i, hd, u, hu, rfl⟩
  · exact absurd hr h
  · cases ht
  · cases ht
  · cases ht
  · rw [State.emitRetire_run] at ht
    have hx : Executes s i u := exec_eq_next_iff.mp hu
    exact ⟨l, i, u, hd, hx, ht, by rw [State.emitRetire_running ht, hx.retired]⟩

/-- A step that halts or faults retires nothing (spec/40_execution_cycle.md R102, spec/60_exceptions.md R207). -/
theorem step_retired_of_stopped {s t : State} (hs : step s = .next t) (ht : t.run ≠ .running) :
    t.retired = s.retired := by
  rcases step_cases hs with ⟨_, rfl⟩ | ⟨_, _, rfl⟩ | ⟨_, _, rfl⟩ | ⟨_, _, _, rfl⟩ | ⟨_, _, i, _, u, hu, rfl⟩
  case inr.inr.inr.inr =>
    rw [State.emitRetire_run] at ht
    rw [State.emitRetire_stopped ht, (exec_eq_next_iff.mp hu).retired]
  all_goals rfl

/-- Settles O11: the update policy is `Executes.pc_cases`, and inside the program `pc + 1` does not wrap. -/
theorem successfulStepMovesPcAndRetiresOnce : Obligations.SuccessfulStepMovesPcAndRetiresOnce := by
  refine fun s t hr hs => ⟨fun ht => ?_, step_retired_of_stopped hs⟩
  obtain ⟨l, i, u, hd, hx, hu, rfl⟩ := step_running hr hs ht
  refine ⟨i, l, hd, rfl, ?_⟩
  rcases hx.pc_cases with hf | rfl | ⟨rfl, hneg⟩ | ⟨hpc, hjump, hjumpNeg⟩
  · rw [hu] at hf; cases hf
  · exact ⟨fun x e => Instr.jump.inj e, nofun, nofun, fun h _ => absurd rfl (h _)⟩
  · exact ⟨nofun, fun x e _ => Instr.jumpNeg.inj e, fun _ _ h => absurd hneg h, fun _ h => absurd rfl (h _)⟩
  · have hnum : u.pc.toNat = s.pc.toNat + 1 := by rw [hpc, PcWord.toNat_add_one_of_lt l]
    exact ⟨fun x e => absurd e (hjump x), fun x e h => absurd h (hjumpNeg x e), fun _ _ _ => hnum, fun _ _ => hnum⟩

end Sys2Proof.Machine
end

section
/-! PROOFS. What a step depends on: two cores that agree there step alike (O14). -/

namespace Sys2Proof.Machine

/-- The states agree in all that a step reads (spec/40_execution_cycle.md R109), and in the fault record if they have
faulted. What lies beyond `N` in the instruction store, an old fault record and the retired events may differ. -/
structure State.Agree (s₁ s₂ : State) : Prop where
  acc : s₁.acc = s₂.acc
  regs : s₁.regs = s₂.regs
  mem : ∀ a, s₁.readMem a = s₂.readMem a
  pc : s₁.pc = s₂.pc
  run : s₁.run = s₂.run
  len : s₁.len = s₂.len
  imem : ∀ k, k < s₁.len.toNat → s₁.imemWord k = s₂.imemWord k
  fault : s₁.run = .faulted → s₁.fault = s₂.fault

/-! ### The operations on the state keep the agreement -/

theorem State.Agree.setAcc {s₁ s₂ : State} (h : s₁.Agree s₂) {v₁ v₂ : Word} (hv : v₁ = v₂) :
    (s₁.setAcc v₁).Agree (s₂.setAcc v₂) :=
  ⟨hv, h.regs, h.mem, h.pc, h.run, h.len, h.imem, h.fault⟩

theorem State.Agree.writeReg {s₁ s₂ : State} (h : s₁.Agree s₂) (k : Fin Config.numRegs) {v₁ v₂ : Word} (hv : v₁ = v₂) :
    (s₁.writeReg k v₁).Agree (s₂.writeReg k v₂) :=
  ⟨h.acc, by rw [State.writeReg_regs, State.writeReg_regs, h.regs, hv], h.mem, h.pc, h.run, h.len, h.imem, h.fault⟩

theorem State.Agree.writeMem {s₁ s₂ : State} (h : s₁.Agree s₂) (a : Nat) {v₁ v₂ : Word} (hv : v₁ = v₂) :
    (s₁.writeMem a v₁).Agree (s₂.writeMem a v₂) :=
  ⟨h.acc, h.regs, fun b => by rw [State.readMem_writeMem, State.readMem_writeMem, h.mem, hv], h.pc, h.run, h.len, h.imem,
    h.fault⟩

theorem State.Agree.jumpTo {s₁ s₂ : State} (h : s₁.Agree s₂) (u : PcWord) : (s₁.jumpTo u).Agree (s₂.jumpTo u) :=
  ⟨h.acc, h.regs, h.mem, rfl, h.run, h.len, h.imem, h.fault⟩

theorem State.Agree.incPc {s₁ s₂ : State} (h : s₁.Agree s₂) : s₁.incPc.Agree s₂.incPc :=
  ⟨h.acc, h.regs, h.mem, congrArg (· + 1) h.pc, h.run, h.len, h.imem, h.fault⟩

theorem State.Agree.halt {s₁ s₂ : State} (h : s₁.Agree s₂) : s₁.halt.Agree s₂.halt :=
  ⟨h.acc, h.regs, h.mem, h.pc, rfl, h.len, h.imem, nofun⟩

/-- What a fault records is the operand, `pc` and `N`. -/
theorem State.Agree.record_eq {s₁ s₂ : State} (h : s₁.Agree s₂) (c : FaultCause) : c.record s₁ = c.record s₂ := by
  cases c <;> simp only [FaultCause.record, h.pc, h.len]

theorem State.Agree.raise {s₁ s₂ : State} (h : s₁.Agree s₂) (c : FaultCause) : (s₁.raise c).Agree (s₂.raise c) :=
  ⟨h.acc, h.regs, h.mem, h.pc, rfl, h.len, h.imem, fun _ => h.record_eq c⟩

theorem State.Agree.readReg_eq {s₁ s₂ : State} (h : s₁.Agree s₂) (k : Fin Config.numRegs) :
    s₁.readReg k = s₂.readReg k := by simp only [State.readReg, h.regs]

theorem State.Agree.accNegative_eq {s₁ s₂ : State} (h : s₁.Agree s₂) : s₁.accNegative = s₂.accNegative := by
  simp only [State.accNegative, h.acc]

/-- The events emitted are not among what must agree, and what one step adds to them is the same. -/
theorem State.Agree.emitRetire {s₁ s₂ t₁ t₂ : State} (h : s₁.Agree s₂) (ht : t₁.Agree t₂) (w : InstrWord) :
    (s₁.emitRetire w t₁).Agree (s₂.emitRetire w t₂) ∧
    ∃ es, (s₁.emitRetire w t₁).retired = t₁.retired ++ es ∧ (s₂.emitRetire w t₂).retired = t₂.retired ++ es := by
  by_cases hr : t₁.run = .running
  · rw [State.emitRetire_running hr, State.emitRetire_running (ht.run ▸ hr)]
    exact ⟨⟨ht.acc, ht.regs, ht.mem, ht.pc, ht.run, ht.len, ht.imem, ht.fault⟩, [⟨s₁.pc, w, t₁.acc⟩], rfl,
      by rw [h.pc, ht.acc]⟩
  · rw [State.emitRetire_stopped hr, State.emitRetire_stopped (ht.run ▸ hr)]
    exact ⟨ht, [], (List.append_nil _).symm, (List.append_nil _).symm⟩

/-! ### The fetch, the instructions and the step -/

theorem State.Agree.imemWord_pc {s₁ s₂ : State} (h : s₁.Agree s₂) (l : s₁.pc.toNat < s₁.len.toNat) :
    s₁.imemWord s₁.pc.toNat = s₂.imemWord s₂.pc.toNat := h.pc ▸ h.imem _ l

/-- The fetch reads the run state, `pc`, `N` and a word below `N`. -/
theorem State.Agree.fetch_eq {s₁ s₂ : State} (h : s₁.Agree s₂) : s₁.fetch = s₂.fetch := by
  rcases s₁.fetch_cases with ⟨hr, f⟩ | ⟨hr, e, f⟩ | ⟨hr, l, f⟩ | ⟨hr, l, why, hd, f⟩ | ⟨hr, l, i, hd, f⟩ <;>
    rw [h.run] at hr <;> rw [f]
  · exact (State.fetch_notRunning hr).symm
  · exact (State.fetch_atEnd hr (h.pc ▸ h.len ▸ e)).symm
  · exact (State.fetch_pastEnd hr (h.pc ▸ h.len ▸ l)).symm
  · rw [h.imemWord_pc l] at hd ⊢; exact (State.fetch_illegal hr (h.pc ▸ h.len ▸ l) hd).symm
  · rw [h.imemWord_pc l] at hd ⊢; exact (State.fetch_instr hr (h.pc ▸ h.len ▸ l) hd).symm

/-- An instruction ends in the same way in states that agree, and leaves states that agree. -/
theorem Executes.agree {s₁ s₂ t₁ : State} {i : Instr} (hx : Executes s₁ i t₁) (h : s₁.Agree s₂) :
    ∃ t₂, Executes s₂ i t₂ ∧ t₁.Agree t₂ := by
  cases hx with
  | faults hc => exact ⟨_, .faults (h.len ▸ hc), h.raise _⟩
  | noop => exact ⟨_, .noop, h.incPc⟩
  | load => exact ⟨_, .load, (h.setAcc rfl).incPc⟩
  | iAdd => exact ⟨_, .iAdd, (h.setAcc (congrArg (· + _) h.acc)).incPc⟩
  | r2aLoad hr => exact ⟨_, .r2aLoad hr, (h.setAcc (h.readReg_eq _)).incPc⟩
  | m2aLoad ha => exact ⟨_, .m2aLoad ha, (h.setAcc (h.mem _)).incPc⟩
  | m2rLoad ha hr => exact ⟨_, .m2rLoad ha hr, (h.writeReg _ (h.mem _)).incPc⟩
  | a2rStore hr => exact ⟨_, .a2rStore hr, (h.writeReg _ h.acc).incPc⟩
  | a2mStore ha => exact ⟨_, .a2mStore ha, (h.writeMem _ h.acc).incPc⟩
  | r2mStore ha hr => exact ⟨_, .r2mStore ha hr, (h.writeMem _ (h.readReg_eq _)).incPc⟩
  | jump hx => exact ⟨_, .jump (h.len ▸ hx), h.jumpTo _⟩
  | jumpNegTaken hx hn => exact ⟨_, .jumpNegTaken (h.len ▸ hx) (h.accNegative_eq ▸ hn), h.jumpTo _⟩
  | jumpNegUntaken hx hn => exact ⟨_, .jumpNegUntaken (h.len ▸ hx) (h.accNegative_eq ▸ hn), h.incPc⟩

/-- States that agree step to states that agree, and the steps emit the same events. -/
theorem State.Agree.of_step {s₁ s₂ : State} (h : s₁.Agree s₂) :
    ∃ t₁ t₂ es, step s₁ = .next t₁ ∧ step s₂ = .next t₂ ∧ t₁.Agree t₂ ∧
      t₁.retired = s₁.retired ++ es ∧ t₂.retired = s₂.retired ++ es := by
  have no_event : ∀ s : State, s.retired = s.retired ++ [] := fun s => (List.append_nil _).symm
  have hf₂ := h.fetch_eq.symm
  cases hf : s₁.fetch <;> rw [hf] at hf₂ <;> simp only [step, hf, hf₂]
  case notRunning => exact ⟨_, _, [], rfl, rfl, h, no_event s₁, no_event s₂⟩
  case atEnd => exact ⟨_, _, [], rfl, rfl, h.halt, no_event s₁, no_event s₂⟩
  case pastEnd => exact ⟨_, _, [], rfl, rfl, h.raise _, no_event s₁, no_event s₂⟩
  case illegal w => exact ⟨_, _, [], rfl, rfl, h.raise _, no_event s₁, no_event s₂⟩
  case instr w i =>
    obtain ⟨u₁, e₁⟩ := exec_next i s₁
    have hx₁ : Executes s₁ i u₁ := exec_eq_next_iff.mp e₁
    obtain ⟨u₂, hx₂, hu⟩ := hx₁.agree h
    obtain ⟨hagree, es, hes₁, hes₂⟩ := h.emitRetire hu w
    rw [e₁, exec_eq_next_iff.mpr hx₂]
    exact ⟨_, _, es, rfl, rfl, hagree, hx₁.retired ▸ hes₁, hx₂.retired ▸ hes₂⟩

/-- Settles O14: both cores are RUNNING, so they agree, and `State.Agree.of_step` says the rest. -/
theorem stepDependsOnNothingElse : Obligations.StepDependsOnNothingElse := by
  intro s₁ s₂ hr₁ hr₂ hacc hregs hmem hpc hlen himem
  have h : s₁.Agree s₂ :=
    ⟨hacc, hregs, hmem, hpc, hr₁.trans hr₂.symm, hlen, himem, fun hf => by rw [hr₁] at hf; cases hf⟩
  obtain ⟨t₁, t₂, es, e₁, e₂, ht, hes₁, hes₂⟩ := h.of_step
  exact ⟨t₁, t₂, es, e₁, e₂, ht.acc, ht.regs, ht.mem, ht.pc, ht.run, ht.len, ht.imem, ht.fault, hes₁, hes₂⟩

end Sys2Proof.Machine
end

section
/-! PROOFS. How a run ends, and a run that does not (O35, O37). -/

namespace Sys2Proof.Machine

/-- Settles O35, by induction on the steps: the first step ends the run, or the rest of the run does. -/
theorem runEndsInOneStepOnly : Obligations.RunEndsInOneStepOnly := by
  intro k
  induction k with
  | zero => intro s t hr hk ht; cases hk; exact absurd hr ht
  | succ k ih =>
    intro s t hr hk ht
    obtain ⟨u, hu⟩ := step_next s
    rw [run_succ k hu] at hk
    by_cases hur : u.run = .running
    · obtain ⟨j, v, hj, hv, hvr, hvt, hbefore, hafter⟩ := ih u t hur hk ht
      refine ⟨j + 1, v, Nat.succ_lt_succ hj, (run_succ j hu).trans hv, hvr, hvt, fun m w hm hw => ?_, fun m hm => ?_⟩
      · cases m with
        | zero => cases hw; exact hr
        | succ m => exact hbefore m w (Nat.le_of_succ_le_succ hm) ((run_succ m hu).symm.trans hw)
      · cases m with
        | zero => cases hm
        | succ m => exact (run_succ m hu).trans (hafter m (Nat.lt_of_succ_lt_succ hm))
    · rw [run_notRunning hur] at hk; cases hk
      refine ⟨0, s, k.succ_pos, run_zero s, hr, hu, fun m w hm hw => ?_, fun m hm => ?_⟩
      · cases Nat.le_zero.mp hm; cases hw; exact hr
      · cases m with
        | zero => cases hm
        | succ m => exact (run_succ m hu).trans (run_notRunning hur m)

/-- A JUMP to its own index leaves the state as it is, but for the event it retires. -/
theorem step_jumpToItself {s : State} (hr : s.run = .running) (hl : s.pc.toNat < s.len.toNat)
    (hp : s.pc.toNat < 2 ^ 31) (hd : decode (s.imemWord s.pc.toNat) = .instr (.jump s.pc)) :
    step s = .next { s with retired := s.retired ++ [⟨s.pc, s.imemWord s.pc.toNat, s.acc⟩] } := by
  have hint : s.pc.toInt = s.pc.toNat := BitVec.toInt_eq_toNat_of_lt (show 2 * s.pc.toNat < 2 ^ 32 by omega)
  have htgt : jumpTarget s.len s.pc = some s.pc := jumpTarget_eq_some.mpr ⟨by omega, rfl⟩
  have hrun : (s.jumpTo s.pc).run = .running := hr
  rw [step_instr hr hl hd (exec_eq_next_iff.mpr (.jump htgt)), State.emitRetire_running hrun]
  rfl

/-- Settles O37, by induction on the steps: what `step_jumpToItself` asks for, it keeps. -/
theorem jumpToItselfNeverEnds : Obligations.JumpToItselfNeverEnds := by
  intro k
  induction k with
  | zero => exact fun s hr _ _ _ => ⟨s, run_zero s, hr, rfl, rfl, rfl⟩
  | succ k ih =>
    intro s hr hl hp hd
    obtain ⟨t, ht, htr, htpc, hcount, hrest⟩ :=
      ih { s with retired := s.retired ++ [⟨s.pc, s.imemWord s.pc.toNat, s.acc⟩] } hr hl hp hd
    refine ⟨t, (run_succ k (step_jumpToItself hr hl hp hd)).trans ht, htr, htpc, ?_, hrest⟩
    rw [hcount, List.length_append, List.length_singleton]; omega

end Sys2Proof.Machine
end

section
/-! PROOFS. The no-op, the loads and the stores: the word of each, its writes and its faults (O15 to O23). -/

namespace Sys2Proof.Machine

/-! ### The operands in range -/

theorem regIndex_of_inRange {r : Word} (h : 0 ≤ r.toInt ∧ r.toInt < 4) :
    ∃ k : Fin Config.numRegs, regIndex r = some k ∧ (k.val : Int) = r.toInt := by
  obtain ⟨k, hk⟩ := regIndex_of_validReg (validReg_iff.mpr h)
  exact ⟨k, hk, (regIndex_eq_some.mp hk).symm⟩

theorem dataAddress_of_inRange {a : Word} (h : 0 ≤ a.toInt ∧ a.toInt < 1024) :
    ∃ b : Fin Config.memWords, dataAddress a = some b ∧ (b.val : Int) = a.toInt := by
  obtain ⟨b, hb⟩ := dataAddress_of_validAddr (validAddr_iff.mpr h)
  exact ⟨b, hb, (dataAddress_eq_some.mp hb).symm⟩

/-! ### The faults, whichever instruction has the operand -/

/-- An address operand out of range: cause 3, whatever the register operand is (spec/60_exceptions.md R204, R206). -/
theorem exec_illegalMemoryAccess {i : Instr} {a : Word} (s : State) (ho : i.addrOperand = some a)
    (h : ¬ (0 ≤ a.toInt ∧ a.toInt < 1024)) :
    exec i s = .next { s with run := .faulted, fault := ⟨3, s.pc, a, 0, 0⟩ } :=
  exec_of_failsCheck (.address ho (dataAddress_eq_none.mpr h))

/-- A register operand out of range, the address operand, if there is one, in range: cause 2 (spec/60_exceptions.md R203,
R206). -/
theorem exec_illegalRegister {i : Instr} {r : Word} (s : State) (ho : i.regOperand = some r)
    (ha : ∀ a, i.addrOperand = some a → 0 ≤ a.toInt ∧ a.toInt < 1024) (h : ¬ (0 ≤ r.toInt ∧ r.toInt < 4)) :
    exec i s = .next { s with run := .faulted, fault := ⟨2, s.pc, r, 0, 0⟩ } :=
  exec_of_failsCheck (.register ho (regIndex_eq_none.mpr h) fun a hao hn => dataAddress_eq_none.mp hn (ha a hao))

/-! ### The writes, with `pc` moved on -/

/-- A register write and the increment change the one register and `pc`. -/
theorem State.writeReg_incPc (s : State) (k : Fin Config.numRegs) (v : Word) :
    (∀ j, (s.writeReg k v).incPc.readReg j = if j = k then v else s.readReg j) ∧
      (s.writeReg k v).incPc = { s with regs := (s.writeReg k v).incPc.regs, pc := s.pc + 1 } :=
  ⟨fun j => s.readReg_writeReg k j v, rfl⟩

/-- A memory write and the increment change the one word and `pc`. -/
theorem State.writeMem_incPc (s : State) (a : Nat) (v : Word) :
    (∀ b, (s.writeMem a v).incPc.readMem b = if b = a then v else s.readMem b) ∧
      (s.writeMem a v).incPc = { s with mem := (s.writeMem a v).incPc.mem, pc := s.pc + 1 } :=
  ⟨fun b => s.readMem_writeMem a b v, rfl⟩

/-! ### NOOP -/

theorem decode_zero : decode 0x00_00000000_00000000#72 = .instr .noop := decode_encode .noop

/-- The step that fetches a NOOP: `pc` moves on, and the NOOP retires. -/
theorem step_noop {s : State} (hr : s.run = .running) (hl : s.pc.toNat < s.len.toNat)
    (hw : s.imemWord s.pc.toNat = 0x00_00000000_00000000#72) :
    step s = .next { s with pc := s.pc + 1, retired := s.retired ++ [⟨s.pc, 0x00_00000000_00000000#72, s.acc⟩] } := by
  have hrun : s.incPc.run = .running := hr
  rw [step_instr hr hl (by rw [hw, decode_zero]) (exec_eq_next_iff.mpr .noop), hw, State.emitRetire_running hrun]
  rfl

/-- Settles O16, by induction on the NOOPs: the first step leaves `pc` on the second NOOP. -/
theorem noopsInARowChangeOnlyPc : Obligations.NoopsInARowChangeOnlyPc := by
  intro k
  induction k with
  | zero => exact fun s _ _ _ => ⟨s, run_zero s, rfl, rfl⟩
  | succ k ih =>
    intro s hr hl hw
    have hin : s.pc.toNat < s.len.toNat := by omega
    have hpc : (s.pc + 1).toNat = s.pc.toNat + 1 := PcWord.toNat_add_one_of_lt hin
    have hrest : ∀ j, j < k → s.imemWord ((s.pc + 1).toNat + j) = 0x00_00000000_00000000#72 := fun j hj => by
      have hidx : (s.pc + 1).toNat + j = s.pc.toNat + (j + 1) := by omega
      rw [hidx, hw (j + 1) (Nat.succ_lt_succ hj)]
    obtain ⟨t, ht, htpc, hframe⟩ :=
      ih { s with pc := s.pc + 1, retired := s.retired ++ [⟨s.pc, 0x00_00000000_00000000#72, s.acc⟩] } hr
        (by simp only [hpc]; omega) hrest
    refine ⟨t, (run_succ k (step_noop hr hin (hw 0 k.succ_pos))).trans ht, ?_, hframe⟩
    rw [htpc, hpc]; omega

/-- Settles O15: NOOP completes with the increment alone. -/
theorem noopOnlyIncrementsPc : Obligations.NoopOnlyIncrementsPc :=
  ⟨decode_zero, fun _ => exec_eq_next_iff.mpr .noop⟩

/-! ### The loads -/

/-- Settles O17: LOAD completes from every state. -/
theorem loadPutsItsImmediateInAcc : Obligations.LoadPutsItsImmediateInAcc :=
  fun imm _ => ⟨decode_encode (.load imm), exec_eq_next_iff.mpr .load⟩

/-- Settles O18, by the register check. -/
theorem r2aLoadCopiesTheNamedRegister : Obligations.R2aLoadCopiesTheNamedRegister := by
  refine fun r s => ⟨decode_encode (.r2aLoad r), fun h => ?_, exec_illegalRegister s rfl nofun⟩
  obtain ⟨k, hk, hkr⟩ := regIndex_of_inRange h
  exact ⟨k, hk, hkr, exec_eq_next_iff.mpr (.r2aLoad hk)⟩

/-- Settles O19, by the address check and then the register check. -/
theorem m2rLoadCopiesAMemoryWordToARegister : Obligations.M2rLoadCopiesAMemoryWordToARegister := by
  refine fun a r s => ⟨decode_encode (.m2rLoad a r), fun ha hr => ?_, exec_illegalMemoryAccess s rfl,
    fun ha => exec_illegalRegister s rfl fun _ e => Option.some.inj e ▸ ha⟩
  obtain ⟨b, hb, hba⟩ := dataAddress_of_inRange ha
  obtain ⟨k, hk, hkr⟩ := regIndex_of_inRange hr
  rw [← hba, Int.toNat_natCast]
  exact ⟨k, hk, hkr, _, exec_eq_next_iff.mpr (.m2rLoad hb hk), s.writeReg_incPc k (s.readMem b)⟩

/-- Settles O20, by the address check. -/
theorem m2aLoadCopiesAMemoryWordToAcc : Obligations.M2aLoadCopiesAMemoryWordToAcc := by
  refine fun a s => ⟨decode_encode (.m2aLoad a), fun h => ?_, exec_illegalMemoryAccess s rfl⟩
  obtain ⟨b, hb, hba⟩ := dataAddress_of_inRange h
  rw [← hba, Int.toNat_natCast]
  exact exec_eq_next_iff.mpr (.m2aLoad hb)

/-! ### The stores -/

/-- Settles O21, by the register check. -/
theorem a2rStoreCopiesAccToTheNamedRegister : Obligations.A2rStoreCopiesAccToTheNamedRegister := by
  refine fun r s => ⟨decode_encode (.a2rStore r), fun h => ?_, exec_illegalRegister s rfl nofun⟩
  obtain ⟨k, hk, hkr⟩ := regIndex_of_inRange h
  exact ⟨k, hk, hkr, _, exec_eq_next_iff.mpr (.a2rStore hk), s.writeReg_incPc k s.acc⟩

/-- Settles O22, by the address check. -/
theorem a2mStoreWritesAccToTheNamedWord : Obligations.A2mStoreWritesAccToTheNamedWord := by
  refine fun a s => ⟨decode_encode (.a2mStore a), fun h => ?_, exec_illegalMemoryAccess s rfl⟩
  obtain ⟨b, hb, hba⟩ := dataAddress_of_inRange h
  exact ⟨b, hb, hba, _, exec_eq_next_iff.mpr (.a2mStore hb), s.writeMem_incPc b s.acc⟩

/-- Settles O23, by the address check and then the register check. -/
theorem r2mStoreWritesARegisterToTheNamedWord : Obligations.R2mStoreWritesARegisterToTheNamedWord := by
  refine fun r a s => ⟨decode_encode (.r2mStore r a), fun ha hr => ?_, exec_illegalMemoryAccess s rfl,
    fun ha => exec_illegalRegister s rfl fun _ e => Option.some.inj e ▸ ha⟩
  obtain ⟨b, hb, hba⟩ := dataAddress_of_inRange ha
  obtain ⟨k, hk, hkr⟩ := regIndex_of_inRange hr
  exact ⟨b, hb, hba, k, hk, hkr, _, exec_eq_next_iff.mpr (.r2mStore hb hk), s.writeMem_incPc b (s.readReg k)⟩

end Sys2Proof.Machine
end

section
/-! PROOFS. The addition of an immediate, and its signed reading (O24; spec/42_arithmetic.md). -/

namespace Sys2Proof

/-- The remainder nearest to zero, as R11 writes it: move the signed range up to start at 0, reduce, and move it back. -/
theorem bmod_two_pow_32 (x : Int) : x.bmod (2 ^ 32) = (x + 2 ^ 31) % 2 ^ 32 - 2 ^ 31 := by
  rw [Int.bmod_def]
  split
  · omega
  · omega

/-- R11: `+_32`, read signed, is the sum reduced modulo 2^32 into the signed range. -/
theorem Word.toInt_add (a b : Word) : (a + b).toInt = (a.toInt + b.toInt + 2 ^ 31) % 2 ^ 32 - 2 ^ 31 :=
  (BitVec.toInt_add a b).trans (bmod_two_pow_32 _)

end Sys2Proof

namespace Sys2Proof.Machine

/-- Settles O24: I_ADD completes from every state, and what it puts in the accumulator is the `+_32` of R11. -/
theorem iAddWrapsModuloTwoToThe32 : Obligations.IAddWrapsModuloTwoToThe32 :=
  fun imm s => ⟨decode_encode (.iAdd imm), s.acc + imm, Word.toInt_add s.acc imm, exec_eq_next_iff.mpr .iAdd⟩

end Sys2Proof.Machine
end

section
/-! PROOFS. The two jumps: the word of each, its target and its fault (O25, O26; spec/43_control_transfer.md). -/

namespace Sys2Proof.Machine

/-- A target operand in range names the index it reads as, signed or unsigned (R170). -/
theorem jumpTarget_of_inRange {n : PcWord} {x : Word} (h : 0 ≤ x.toInt ∧ x.toInt < n.toNat) :
    jumpTarget n x = some x ∧ (x.toNat : Int) = x.toInt :=
  ⟨jumpTarget_eq_some.mpr ⟨h, rfl⟩, (toInt_eq_toNat_of_nonneg h.1).symm⟩

/-- A target operand out of range: cause 4, with from, to and len, whichever of the two jumps has it and whatever the
accumulator holds (R170, R171; spec/60_exceptions.md R204). -/
theorem exec_illegalJump {i : Instr} {x : Word} (s : State) (ho : i.tgtOperand = some x)
    (h : ¬ (0 ≤ x.toInt ∧ x.toInt < s.len.toNat)) :
    exec i s = .next { s with run := .faulted, fault := ⟨4, s.pc, x, s.len, 0⟩ } :=
  exec_of_failsCheck (.target ho (jumpTarget_eq_none.mpr h))

/-- Settles O25, by the target check. -/
theorem jumpGoesToItsTarget : Obligations.JumpGoesToItsTarget := by
  refine fun x s => ⟨decode_encode (.jump x), fun h => ?_, exec_illegalJump s rfl⟩
  obtain ⟨ht, hx⟩ := jumpTarget_of_inRange h
  exact ⟨exec_eq_next_iff.mpr (.jump ht), hx⟩

/-- Settles O26, by the target check and then the sign of the accumulator. -/
theorem jumpNegGoesToItsTargetIfAccIsNegative : Obligations.JumpNegGoesToItsTargetIfAccIsNegative := by
  refine fun x s => ⟨decode_encode (.jumpNeg x), fun h hneg => ?taken, fun h hpos => ?untaken, exec_illegalJump s rfl⟩
  case taken =>
    obtain ⟨ht, hx⟩ := jumpTarget_of_inRange h
    exact ⟨exec_eq_next_iff.mpr (.jumpNegTaken ht (decide_eq_true hneg)), hx⟩
  case untaken =>
    obtain ⟨ht, -⟩ := jumpTarget_of_inRange h
    exact exec_eq_next_iff.mpr (.jumpNegUntaken ht (decide_eq_false hpos))

end Sys2Proof.Machine
end

section
/-! PROOFS. The fetch past the end: what it leaves, and that nothing else raises its cause (O8; spec/60_exceptions.md
R202). -/

namespace Sys2Proof.Machine

/-- The fetch fault (spec/40_execution_cycle.md R103). -/
theorem step_pastEnd {s : State} (hr : s.run = .running) (hl : s.len.toNat < s.pc.toNat) :
    step s = .next (s.raise .outOfBoundsFetch) := by
  simp only [step, State.fetch_pastEnd hr hl]

/-- Code 1 is the fetch past the end and no other cause (spec/60_exceptions.md R201). -/
theorem FaultCause.record_cause_ne_one {c : FaultCause} (s : State) (hc : c ≠ .outOfBoundsFetch) :
    (c.record s).cause ≠ 1 := by
  intro h
  have hcode := (c.record_cause s hc).1
  rw [h] at hcode
  exact absurd hcode (by decide)

/-- An instruction that faults raises an operand fault, never the fetch's. -/
theorem exec_cause_ne_one {i : Instr} {s t : State} (hr : s.run = .running) (he : exec i s = .next t)
    (hf : t.run = .faulted) : t.fault.cause ≠ 1 := by
  rcases exec_cases i s with ⟨c, e, _, hc⟩ | ⟨u, e, _, hu⟩ <;> rw [he] at e <;> cases e
  · exact c.record_cause_ne_one s (by rcases hc with ⟨_, rfl⟩ | ⟨_, rfl⟩ | ⟨_, rfl⟩ <;> nofun)
  · rw [hu.run, hr] at hf; cases hf

/-- A step that faults with cause 1 found `pc > N`, whether or not its state can be reached. -/
theorem pastEnd_of_step_cause_one {s t : State} (hr : s.run = .running) (hs : step s = .next t)
    (hf : t.run = .faulted) (hc : t.fault.cause = 1) : s.len.toNat < s.pc.toNat := by
  rcases step_cases hs with ⟨h, _⟩ | ⟨_, _, rfl⟩ | ⟨_, l, _⟩ | ⟨_, _, _, rfl⟩ | ⟨_, _, i, _, u, hu, rfl⟩
  · exact absurd hr h
  · cases hf
  · exact l
  · exact absurd hc (FaultCause.record_cause_ne_one s nofun)
  · rw [State.emitRetire_run] at hf
    rw [State.emitRetire_fault] at hc
    exact absurd hc (exec_cause_ne_one hr hu hf)

/-- The invariant admits no record of a fetch past the end: a faulted run holds a code from 2 on, any other holds 0. -/
theorem Inv.cause_ne_one {s : State} (h : Inv s) : s.fault.cause ≠ 1 := by
  intro hc
  by_cases hf : s.run = .faulted
  · have hcode := (h.record hf).1
    rw [hc] at hcode
    exact absurd hcode (by decide)
  · rw [h.noRecord hf] at hc
    exact absurd hc (by decide)

/-- Settles O8: the fetch fault, the only step with its cause, and the invariant of the state that the step reaches. -/
theorem fetchPastTheEndFaultsAndIsUnreachable : Obligations.FetchPastTheEndFaultsAndIsUnreachable :=
  ⟨fun _ => step_pastEnd, fun _ _ => pastEnd_of_step_cause_one,
    fun _ _ hreach _ hs => (hreach.coreStep hs).inv.cause_ne_one⟩

end Sys2Proof.Machine
end

section
/-! PROOFS. Reset, program load, and the boot sequence (O43, O45, O49). -/

namespace Sys2Proof.Machine

/-! ### Reset -/

theorem State.readReg_hostReset (s : State) (r : Fin Config.numRegs) : s.hostReset.readReg r = 0 :=
  Vector.getElem_replicate r.isLt

theorem State.readMem_hostReset (s : State) (a : Nat) : s.hostReset.readMem a = 0 := Memory.read_nil a

/-- Settles O43: `hostReset` itself, whose registers and memory words read 0. -/
theorem hostResetZeroesAllButTheProgram : Obligations.HostResetZeroesAllButTheProgram :=
  fun s => ⟨s.hostReset, rfl, s.readReg_hostReset, s.readMem_hostReset, rfl⟩

/-! ### Program load -/

/-- A length within the capacity fits in `N` (spec/00_scope.md R7). -/
theorem State.toNat_len_loadWords (s : State) {ws : List InstrWord} (hf : ws.length ≤ Config.imemCapacity) :
    (s.loadWords ws).len.toNat = ws.length :=
  PcWord.toNat_ofNat (by have := imemCapacity_le; omega)

/-- The loaded words stand before whatever was in the store. -/
theorem State.imemWord_loadWords (s : State) {ws : List InstrWord} {k : Nat} {w : InstrWord} (hw : ws[k]? = some w) :
    (s.loadWords ws).imemWord k = w := by
  obtain ⟨hk, _⟩ := List.getElem?_eq_some_iff.mp hw
  rw [State.imemWord, State.loadWords_imem, List.getD_append _ _ _ _ hk, List.getD_eq_getElem?_getD, hw,
    Option.getD_some]

theorem hostOp_loadProgram {s : State} {ws : List InstrWord} (hi : s.run = .idle)
    (hf : ws.length ≤ Config.imemCapacity) : hostOp (.loadProgram ws) s = (s.loadWords ws, .done) :=
  (if_pos hf).trans (State.whenIdle_idle hi _)

theorem hostOp_loadProgram_overCapacity (s : State) {ws : List InstrWord} (hf : Config.imemCapacity < ws.length) :
    hostOp (.loadProgram ws) s = (s, .refused) :=
  if_neg (not_le_of_gt hf)

/-- Settles O45: `loadWords` in IDLE and within the capacity, and the two ways to be refused. -/
theorem programLoadSetsLengthAndWords : Obligations.ProgramLoadSetsLengthAndWords := by
  refine fun ws s => ⟨fun hi hf => ?_, fun h => ?_⟩
  · exact ⟨s.loadWords ws, hostOp_loadProgram hi hf, s.toNat_len_loadWords hf,
      fun k w hw => s.imemWord_loadWords hw, rfl⟩
  · rcases h with hi | hf
    · exact (hostOp_effect (.loadProgram ws) s).refused_of_not_idle hi rfl
    · exact hostOp_loadProgram_overCapacity s hf

/-! ### The boot sequence -/

/-- Reset and load write different fields. -/
theorem State.hostReset_loadWords (s : State) (ws : List InstrWord) :
    (s.loadWords ws).hostReset = s.hostReset.loadWords ws := rfl

theorem hostOp_start {s : State} (hi : s.run = .idle) : hostOp .start s = (s.startRun, .done) :=
  State.whenIdle_idle hi _

/-- Reset makes the state IDLE, whatever it was, so that neither the load nor the start is refused. -/
theorem hostOps_reset_load_start (s : State) {ws : List InstrWord} (hf : ws.length ≤ Config.imemCapacity) :
    hostOps [.reset, .loadProgram ws, .start] s = (s.hostReset.loadWords ws).startRun := by
  have hidle : (s.hostReset.loadWords ws).run = .idle := s.hostReset_run
  calc hostOps [.reset, .loadProgram ws, .start] s
      = (hostOp .start (hostOp (.loadProgram ws) s.hostReset).1).1 := rfl
    _ = (s.hostReset.loadWords ws).startRun := by rw [hostOp_loadProgram s.hostReset_run hf, hostOp_start hidle]

/-- A load in IDLE is performed, and the reset after it keeps the program. -/
theorem hostOps_load_reset_start {s : State} {ws : List InstrWord} (hi : s.run = .idle)
    (hf : ws.length ≤ Config.imemCapacity) :
    hostOps [.loadProgram ws, .reset, .start] s = (s.hostReset.loadWords ws).startRun := by
  have hidle : (s.loadWords ws).hostReset.run = .idle := State.hostReset_run _
  calc hostOps [.loadProgram ws, .reset, .start] s
      = (hostOp .start (hostOp (.loadProgram ws) s).1.hostReset).1 := rfl
    _ = (s.hostReset.loadWords ws).startRun := by
        rw [hostOp_loadProgram hi hf, hostOp_start hidle, s.hostReset_loadWords]

/-- Settles O49: both orders lead to `(s.hostReset.loadWords ws).startRun`, whose fields are those of its three parts. -/
theorem bootSequenceStartsTheProgramAtZero : Obligations.BootSequenceStartsTheProgramAtZero := by
  intro ws s hf
  rw [hostOps_reset_load_start s hf]
  exact ⟨⟨rfl, rfl, rfl, s.readReg_hostReset, s.readMem_hostReset, rfl, s.hostReset.toNat_len_loadWords hf,
    fun k w hw => s.hostReset.imemWord_loadWords hw⟩, fun hi => hostOps_load_reset_start hi hf⟩

end Sys2Proof.Machine
end

section
/-! PROOFS. The canonical form of data memory is determined by what it reads (O32). -/

namespace Sys2Proof.Machine

/-- Below every listed address nothing is listed, whatever form the memory is in. -/
theorem Memory.read_of_below {m : Memory} {a : Nat} (h : ∀ c ∈ m, a < c.1) : m.read a = 0 := by
  induction m with
  | nil => exact Memory.read_nil a
  | cons c m ih =>
    obtain ⟨hc, hm⟩ := List.forall_mem_cons.mp h
    rw [Memory.read_cons, if_neg hc.ne', ih hm]

theorem Memory.read_head (a : Nat) (v : Word) (m : Memory) : Memory.read ((a, v) :: m) a = v := if_pos rfl

/-- The first listed address of a canonical memory is the lowest that does not read 0. -/
theorem Memory.head_le_of_read_ne_zero {a b : Nat} {v : Word} {m : Memory} (h : Memory.wf ((b, v) :: m) = true)
    (ha : Memory.read ((b, v) :: m) a ≠ 0) : b ≤ a := by
  obtain ⟨-, -, hbelow, -⟩ := Memory.wf_cons.mp h
  by_contra hlt
  have hab : a < b := not_le.mp hlt
  exact ha (Memory.read_of_below (List.forall_mem_cons.mpr ⟨hab, fun c hc => hab.trans (hbelow c hc)⟩))

/-- What the tail of a canonical memory reads is given by what the whole reads and by the first listed address. -/
theorem Memory.read_tail {a : Nat} {v : Word} {m : Memory} (h : Memory.wf ((a, v) :: m) = true) (c : Nat) :
    m.read c = if c = a then 0 else Memory.read ((a, v) :: m) c := by
  obtain ⟨-, -, hbelow, -⟩ := Memory.wf_cons.mp h
  split
  case isTrue hc => exact hc ▸ Memory.read_of_below hbelow
  case isFalse hc => rw [Memory.read_cons, if_neg (Ne.symm hc)]

theorem Memory.read_head_ne_zero {a : Nat} {v : Word} {m : Memory} (h : Memory.wf ((a, v) :: m) = true) :
    Memory.read ((a, v) :: m) a ≠ 0 := by
  obtain ⟨-, hv, -, -⟩ := Memory.wf_cons.mp h
  rwa [Memory.read_head]

/-- The words read determine the first address, as the lowest that does not read 0, then its word, then the tail. -/
theorem Memory.eq_of_read_eq {m₁ m₂ : Memory} (h₁ : m₁.wf = true) (h₂ : m₂.wf = true)
    (h : ∀ a, m₁.read a = m₂.read a) : m₁ = m₂ := by
  induction m₁ generalizing m₂ with
  | nil =>
    cases m₂ with
    | nil => rfl
    | cons d m₂ => exact absurd (h d.1).symm (Memory.read_head_ne_zero h₂)
  | cons c m₁ ih =>
    cases m₂ with
    | nil => exact absurd (h c.1) (Memory.read_head_ne_zero h₁)
    | cons d m₂ =>
      obtain ⟨a, v⟩ := c
      obtain ⟨b, w⟩ := d
      have hab : a = b := le_antisymm
        (Memory.head_le_of_read_ne_zero h₁ (h b ▸ Memory.read_head_ne_zero h₂))
        (Memory.head_le_of_read_ne_zero h₂ (h a ▸ Memory.read_head_ne_zero h₁))
      subst hab
      have hvw : v = w := by simpa only [Memory.read_head] using h a
      obtain ⟨-, -, -, htail₁⟩ := Memory.wf_cons.mp h₁
      obtain ⟨-, -, -, htail₂⟩ := Memory.wf_cons.mp h₂
      have htails : m₁ = m₂ := ih htail₁ htail₂ fun x => by
        rw [Memory.read_tail h₁, Memory.read_tail h₂, h]
      rw [hvw, htails]

/-- Settles O32, by induction on the listed words. -/
theorem canonicalMemoriesThatReadAlikeAreEqual : Obligations.CanonicalMemoriesThatReadAlikeAreEqual :=
  fun _ _ => Memory.eq_of_read_eq

end Sys2Proof.Machine
end
